-- ==== Sys2Proof/Word.lean ====
section
/-! DEFINITION. The words of the machine and the vocabulary the encodings are written in: bytes, levels, the
sixteen TAP controller states, the requests of the control channel, and the three kinds of code a table row of
spec/opcode_table.json is written in. -/

namespace Sys2Proof

/-- One byte of a stream; bit 7 is the most significant (00_scope.md R13). -/
abbrev Byte := BitVec 8

/-- A pin level: `true` is 1, high, asserted; `false` is 0, low, released (R13, 30_encoding.md R83). -/
abbrev Level := Bool

/-- The sixteen states of the standard TAP controller, in the order the source lists them
(10_state.md R20, R21). `Fault` is not one of them (40_tap_advance.md R127). -/
inductive TapCtl where
  | reset | runIdle
  | selectIR | captureIR | shiftIR | exit1IR | pauseIR | exit2IR | updateIR
  | selectDR | captureDR | shiftDR | exit1DR | pauseDR | exit2DR | updateDR
  deriving DecidableEq, Repr

/-- The requests of the control channel, by name (30_encoding.md R95: the source gives no numeric request code). -/
inductive ControlRequest where
  /-- RESET with its value field, any natural number (45_control_and_framer.md R223; log 25). -/
  | reset (value : Nat)
  /-- EEPROM write, with any sub-code and payload (R224). -/
  | eepromWrite (subCode : Nat) (payload : List Byte)
  /-- EEPROM erase, with any sub-code and payload (R224). -/
  | eepromErase (subCode : Nat) (payload : List Byte)
  /-- EEPROM read; the sub-code is whatever selects the part of the image (R225; log 9). -/
  | eepromRead (subCode : Nat)
  | modemStatusQuery
  | latencyTimerQuery
  /-- Any other vendor request, with a number that names it and any payload (R226; log 32). -/
  | other (request : Nat) (payload : List Byte)
  deriving DecidableEq, Repr

/-- What an instruction is written as. The table has three formats and no common word for them (30_encoding.md
R80, R95, R96): a byte of the stream, a five-bit pattern of the TAP table, an event of the control channel. -/
inductive Code where
  /-- Format `byte`: one byte of the inbound stream (R80). -/
  | byte (b : Byte)
  /-- Format `tap`: the pattern code * 2 + mode_bit of a TAP table entry (R96). -/
  | pattern (w : BitVec 5)
  /-- Format `control`: a control request (R95). -/
  | request (r : ControlRequest)
  /-- Format `control`: a USB bus reset, which is not a request (45_control_and_framer.md R228). -/
  | busReset
  deriving DecidableEq, Repr

/-- The state that selects how a stream byte is read: `shift_remaining` and `read_enabled` (30_encoding.md R81, R86). -/
structure Selector where
  remaining : BitVec 6
  read : Bool
  deriving DecidableEq, Repr

/-- The selector right after a reset, and after any burst opened without READ: a command byte comes next. -/
def Selector.command : Selector := { remaining := 0, read := false }

end Sys2Proof
end

