-- ==== Sys2Proof/Config.lean ====
section
/-! DEFINITION. The implementation parameters of 00_scope.md R7 and the values the spec leaves open. The parameters
are a record that `State` carries and no step changes, so that a statement about every state is a statement about
every machine; the open values are constants without a body. -/

namespace Sys2Proof

/-- The model arguments of 00_scope.md R7. `OUT_CAP` and `MARKER_MASK` are computed from them. -/
structure Params where
  /-- `IN_CAP`, the capacity of the inbound FIFO in bytes. -/
  inCap : Nat
  /-- `PKT_IN_MAX`, the maximum bulk-IN packet size. -/
  pktInMax : Nat
  tckBit : Fin 5
  tmsBit : Fin 5
  tdiBit : Fin 5
  tdoRespBit : Fin 8
  /-- Which of the seven bits other than `TDO_RESP_BIT` is the marker, counted from the least significant: the
  record cannot hold a marker that is not legal (93_implementation_defined.md U1). -/
  markerIndex : Fin 7
  modemStatus0 : Byte
  modemStatus1 : Byte
  deriving DecidableEq, Repr

/-- `OUT_CAP = PKT_IN_MAX - 2` (00_scope.md R7, 10_state.md R30). -/
def Params.outCap (p : Params) : Nat := p.pktInMax - 2

/-- The number of the marker bit: never `TDO_RESP_BIT`. -/
def Params.markerBit (p : Params) : Nat :=
  if p.markerIndex.val < p.tdoRespBit.val then p.markerIndex.val else p.markerIndex.val + 1

/-- `MARKER_MASK`: exactly one bit set (00_scope.md R7). -/
def Params.markerMask (p : Params) : Byte := 1#8 <<< p.markerBit

namespace Config

/-- OPEN in the source: the marker bit of a bit-bang response (93_implementation_defined.md U1; log 7). -/
opaque markerIndex : Fin 7

/-- OPEN in the source: the two modem-status bytes (93_implementation_defined.md U12; log 8). -/
opaque modemStatus0 : Byte
opaque modemStatus1 : Byte

/-- Unspecified: the levels of the output pins at power-up (93_implementation_defined.md U6; log 5). -/
opaque powerUpTdi : Level
opaque powerUpTms : Level
opaque powerUpTck : Level

/-- The oracles of 00_scope.md R12 for the `n`-th pin operation, where `State` lists no answer: whether it
succeeds (U8), the level a sense finds (U7), whether a failed drive left the requested level (U5). Log 3, 4. -/
opaque freePinOk : Nat → Bool
opaque freeTdo : Nat → Level
opaque freeMoved : Nat → Bool

/-- The canned answers of the external data provider (45_control_and_framer.md R225, 93 U13; log 9). -/
opaque eepromImage : Nat → List Byte
opaque modemStatusAnswer : List Byte
opaque latencyTimerAnswer : List Byte

end Config

/-- The parameters a machine has at reset: the nominal capacities, the default bit numbers of decisions D3 and D8
(log 6), and the open constants. -/
def Params.nominal : Params :=
  { inCap := 64, pktInMax := 64, tckBit := 0, tmsBit := 1, tdiBit := 4, tdoRespBit := 0
    markerIndex := Config.markerIndex
    modemStatus0 := Config.modemStatus0, modemStatus1 := Config.modemStatus1 }

end Sys2Proof
end

