-- ==== Sys2Proof/Syntax.lean ====
section
/-! DEFINITION. The instructions: one constructor for each row of spec/opcode_table.json (00_scope.md R18: an
instruction is one stream byte, one lookup of `advance`, or one control request). -/

namespace Sys2Proof

/-- The 49 rows of the opcode table, in the table's order. -/
inductive Instr where
  /-- `BB`: bit-bang command without response (42_command_bytes.md R160). The bits no parameter designates are no
  operand: two bytes that differ only in them are the same command (30_encoding.md R88). -/
  | bb (tck tms tdi : Level)
  /-- `BBR`: bit-bang command with response (R161). -/
  | bbr (tck tms tdi : Level)
  /-- `SHIFT`: open a burst of `count` data bytes without responses (R162). -/
  | shift (count : BitVec 6)
  /-- `SHIFTR`: open a burst of `count` data bytes with responses (R163). -/
  | shiftr (count : BitVec 6)
  /-- `DATA`: a data byte of a burst opened without READ (43_data_bytes.md R180). -/
  | data (d : Byte)
  /-- `DATAR`: a data byte of a burst opened with READ (R181). -/
  | datar (d : Byte)
  -- The rows `advance.<state>.<mode_bit>`: one entry of the TAP table each (40_tap_advance.md R111 to R126).
  | advanceReset0 | advanceReset1
  | advanceRunIdle0 | advanceRunIdle1
  | advanceSelectIR0 | advanceSelectIR1
  | advanceCaptureIR0 | advanceCaptureIR1
  | advanceShiftIR0 | advanceShiftIR1
  | advanceExit1IR0 | advanceExit1IR1
  | advancePauseIR0 | advancePauseIR1
  | advanceExit2IR0 | advanceExit2IR1
  | advanceUpdateIR0 | advanceUpdateIR1
  | advanceSelectDR0 | advanceSelectDR1
  | advanceCaptureDR0 | advanceCaptureDR1
  | advanceShiftDR0 | advanceShiftDR1
  | advanceExit1DR0 | advanceExit1DR1
  | advancePauseDR0 | advancePauseDR1
  | advanceExit2DR0 | advanceExit2DR1
  | advanceUpdateDR0 | advanceUpdateDR1
  /-- `RESET.0`: full logical reset (45_control_and_framer.md R220). -/
  | reset0
  /-- `RESET.1`: purge inbound (R221). -/
  | reset1
  /-- `RESET.2`: purge outbound (R222). -/
  | reset2
  /-- `RESET.other`: no operation (R223). -/
  | resetOther (value : Nat)
  /-- `BUS_RESET` (R228). -/
  | busReset
  /-- `EEPROM_WRITE` (R224). -/
  | eepromWrite (subCode : Nat) (payload : List Byte)
  /-- `EEPROM_ERASE` (R224). -/
  | eepromErase (subCode : Nat) (payload : List Byte)
  /-- `EEPROM_READ` (R225). -/
  | eepromRead (subCode : Nat)
  /-- `MODEM_STATUS_QUERY` (R225). -/
  | modemStatusQuery
  /-- `LATENCY_TIMER_QUERY` (R225). -/
  | latencyTimerQuery
  /-- `VENDOR_OTHER` (R226). -/
  | vendorOther (request : Nat) (payload : List Byte)
  deriving DecidableEq, Repr

end Sys2Proof
end

