-- ==== Sys2Proof/WellFormed.lean ====
section
/-! DEFINITION. Which instructions and which parameters are well formed: the only limits the spec sets that the
types of the fields do not already carry. -/

namespace Sys2Proof

/-- The legal parameters of 00_scope.md R7 (with 93_implementation_defined.md U3: `OUT_CAP` is at least 1). That the
marker is one bit and not the data-out bit is carried by `Params` itself. -/
def Params.legal (p : Params) : Bool :=
  decide (1 ≤ p.inCap) && decide (3 ≤ p.pktInMax) && decide (p.tckBit ≠ p.tmsBit) &&
    decide (p.tckBit ≠ p.tdiBit) && decide (p.tmsBit ≠ p.tdiBit)

/-- Well-formedness of an instruction: `RESET.other` stands for the values other than 0, 1, 2
(45_control_and_framer.md R223); every other row admits every value of its fields (30_encoding.md R89). -/
def Instr.wellFormed : Instr → Bool
  | .resetOther value => decide (3 ≤ value)
  | .bb _ _ _ | .bbr _ _ _ | .shift _ | .shiftr _ | .data _ | .datar _ => true
  | .advanceReset0 | .advanceReset1
  | .advanceRunIdle0 | .advanceRunIdle1
  | .advanceSelectIR0 | .advanceSelectIR1
  | .advanceCaptureIR0 | .advanceCaptureIR1
  | .advanceShiftIR0 | .advanceShiftIR1
  | .advanceExit1IR0 | .advanceExit1IR1
  | .advancePauseIR0 | .advancePauseIR1
  | .advanceExit2IR0 | .advanceExit2IR1
  | .advanceUpdateIR0 | .advanceUpdateIR1
  | .advanceSelectDR0 | .advanceSelectDR1
  | .advanceCaptureDR0 | .advanceCaptureDR1
  | .advanceShiftDR0 | .advanceShiftDR1
  | .advanceExit1DR0 | .advanceExit1DR1
  | .advancePauseDR0 | .advancePauseDR1
  | .advanceExit2DR0 | .advanceExit2DR1
  | .advanceUpdateDR0 | .advanceUpdateDR1 => true
  | .reset0 | .reset1 | .reset2 | .busReset => true
  | .eepromWrite _ _ | .eepromErase _ _ | .eepromRead _ => true
  | .modemStatusQuery | .latencyTimerQuery | .vendorOther _ _ => true

/-- The selector under which a stream byte is read as this instruction (30_encoding.md R81, R86): a command while
`shift_remaining = 0`, a data byte otherwise, with or without READ. The other rows do not look at it. -/
def Instr.readUnder (sel : Selector) : Instr → Bool
  | .bb _ _ _ | .bbr _ _ _ | .shift _ | .shiftr _ => decide (sel.remaining = 0)
  | .data _ => decide (sel.remaining ≠ 0) && !sel.read
  | .datar _ => decide (sel.remaining ≠ 0) && sel.read
  | .advanceReset0 | .advanceReset1
  | .advanceRunIdle0 | .advanceRunIdle1
  | .advanceSelectIR0 | .advanceSelectIR1
  | .advanceCaptureIR0 | .advanceCaptureIR1
  | .advanceShiftIR0 | .advanceShiftIR1
  | .advanceExit1IR0 | .advanceExit1IR1
  | .advancePauseIR0 | .advancePauseIR1
  | .advanceExit2IR0 | .advanceExit2IR1
  | .advanceUpdateIR0 | .advanceUpdateIR1
  | .advanceSelectDR0 | .advanceSelectDR1
  | .advanceCaptureDR0 | .advanceCaptureDR1
  | .advanceShiftDR0 | .advanceShiftDR1
  | .advanceExit1DR0 | .advanceExit1DR1
  | .advancePauseDR0 | .advancePauseDR1
  | .advanceExit2DR0 | .advanceExit2DR1
  | .advanceUpdateDR0 | .advanceUpdateDR1 => true
  | .reset0 | .reset1 | .reset2 | .resetOther _ | .busReset => true
  | .eepromWrite _ _ | .eepromErase _ _ | .eepromRead _ => true
  | .modemStatusQuery | .latencyTimerQuery | .vendorOther _ _ => true

end Sys2Proof
end

