-- ==== Sys2Proof/Decode.lean ====
section
/-! DEFINITION. Decoding and encoding (30_encoding.md). The decoder is total: no byte is illegal in either mode (R89),
each of the 32 patterns of the TAP table names one entry (R96), and each request has a row (R95). -/

namespace Sys2Proof

/-! ## Stream bytes -/

/-- The command byte formats of R82, R83, R84, R86: bit 7 is SHIFT, bit 6 is READ. -/
def decodeCommand (p : Params) (b : Byte) : Instr :=
  match b.getLsbD 7, b.getLsbD 6 with
  | false, false => .bb (b.getLsbD p.tckBit) (b.getLsbD p.tmsBit) (b.getLsbD p.tdiBit)
  | false, true => .bbr (b.getLsbD p.tckBit) (b.getLsbD p.tmsBit) (b.getLsbD p.tdiBit)
  | true, false => .shift (b.extractLsb' 0 6)
  | true, true => .shiftr (b.extractLsb' 0 6)

/-- The decode function of R86: the selector, and nothing in the byte, says whether it is a command or data (R81). -/
def decodeByte (p : Params) (sel : Selector) (b : Byte) : Instr :=
  if sel.remaining = 0 then decodeCommand p b
  else if sel.read then .datar b else .data b

/-! ## Patterns of the TAP table -/

/-- The numbering of 10_state.md R21 (decision D1, log 11). -/
def TapCtl.code : TapCtl → BitVec 4
  | .reset => 0 | .runIdle => 1
  | .selectIR => 2 | .captureIR => 3 | .shiftIR => 4 | .exit1IR => 5 | .pauseIR => 6 | .exit2IR => 7 | .updateIR => 8
  | .selectDR => 9 | .captureDR => 10 | .shiftDR => 11 | .exit1DR => 12 | .pauseDR => 13 | .exit2DR => 14
  | .updateDR => 15

/-- The state a number of R21 stands for. -/
def TapCtl.ofCode (c : BitVec 4) : TapCtl :=
  match c.toNat with
  | 0 => .reset | 1 => .runIdle
  | 2 => .selectIR | 3 => .captureIR | 4 => .shiftIR | 5 => .exit1IR | 6 => .pauseIR | 7 => .exit2IR | 8 => .updateIR
  | 9 => .selectDR | 10 => .captureDR | 11 => .shiftDR | 12 => .exit1DR | 13 => .pauseDR | 14 => .exit2DR
  | _ => .updateDR

/-- The pattern of R96: the four code bits above the mode bit. -/
def patternOf (c : TapCtl) (modeBit : Level) : BitVec 5 := c.code ++ BitVec.ofBool modeBit

/-- The row `advance.<state>.<mode_bit>` of the table. -/
def advanceInstr : TapCtl → Level → Instr
  | .reset, false => .advanceReset0
  | .reset, true => .advanceReset1
  | .runIdle, false => .advanceRunIdle0
  | .runIdle, true => .advanceRunIdle1
  | .selectIR, false => .advanceSelectIR0
  | .selectIR, true => .advanceSelectIR1
  | .captureIR, false => .advanceCaptureIR0
  | .captureIR, true => .advanceCaptureIR1
  | .shiftIR, false => .advanceShiftIR0
  | .shiftIR, true => .advanceShiftIR1
  | .exit1IR, false => .advanceExit1IR0
  | .exit1IR, true => .advanceExit1IR1
  | .pauseIR, false => .advancePauseIR0
  | .pauseIR, true => .advancePauseIR1
  | .exit2IR, false => .advanceExit2IR0
  | .exit2IR, true => .advanceExit2IR1
  | .updateIR, false => .advanceUpdateIR0
  | .updateIR, true => .advanceUpdateIR1
  | .selectDR, false => .advanceSelectDR0
  | .selectDR, true => .advanceSelectDR1
  | .captureDR, false => .advanceCaptureDR0
  | .captureDR, true => .advanceCaptureDR1
  | .shiftDR, false => .advanceShiftDR0
  | .shiftDR, true => .advanceShiftDR1
  | .exit1DR, false => .advanceExit1DR0
  | .exit1DR, true => .advanceExit1DR1
  | .pauseDR, false => .advancePauseDR0
  | .pauseDR, true => .advancePauseDR1
  | .exit2DR, false => .advanceExit2DR0
  | .exit2DR, true => .advanceExit2DR1
  | .updateDR, false => .advanceUpdateDR0
  | .updateDR, true => .advanceUpdateDR1

/-- The row a five-bit pattern names (R96). -/
def decodePattern (w : BitVec 5) : Instr :=
  advanceInstr (TapCtl.ofCode (w.extractLsb' 1 4)) (w.getLsbD 0)

/-! ## Control requests -/

/-- The row of a control request: the RESET value selects among its four rows (R95, 45_control_and_framer.md R220 to
R223); the others are told apart by name. -/
def decodeRequest : ControlRequest → Instr
  | .reset 0 => .reset0
  | .reset 1 => .reset1
  | .reset 2 => .reset2
  | .reset (value + 3) => .resetOther (value + 3)
  | .eepromWrite subCode payload => .eepromWrite subCode payload
  | .eepromErase subCode payload => .eepromErase subCode payload
  | .eepromRead subCode => .eepromRead subCode
  | .modemStatusQuery => .modemStatusQuery
  | .latencyTimerQuery => .latencyTimerQuery
  | .other request payload => .vendorOther request payload

/-- The instruction a code stands for, under the selector the machine has. -/
def decode (p : Params) (sel : Selector) : Code → Instr
  | .byte b => decodeByte p sel b
  | .pattern w => decodePattern w
  | .request r => decodeRequest r
  | .busReset => .busReset

/-! ## The encoder -/

/-- A bit-bang command byte in the notation of R93: the three levels at their bits, READ at bit 6, ignored bits 0. -/
def bitBangByte (p : Params) (read : Bool) (tck tms tdi : Level) : Byte :=
  ((BitVec.ofBool tdi).setWidth 8 <<< p.tdiBit.val) ||| ((BitVec.ofBool tms).setWidth 8 <<< p.tmsBit.val) |||
    ((BitVec.ofBool tck).setWidth 8 <<< p.tckBit.val) ||| ((BitVec.ofBool read).setWidth 8 <<< 6)

/-- The code of an instruction: R93 for the bytes, R96 for the TAP patterns, R95 for the requests. -/
def encode (p : Params) : Instr → Code
  | .bb tck tms tdi => .byte (bitBangByte p false tck tms tdi)
  | .bbr tck tms tdi => .byte (bitBangByte p true tck tms tdi)
  | .shift count => .byte (0x80#8 ||| count.setWidth 8)
  | .shiftr count => .byte (0xC0#8 ||| count.setWidth 8)
  | .data d => .byte d
  | .datar d => .byte d
  | .advanceReset0 => .pattern (patternOf .reset false)
  | .advanceReset1 => .pattern (patternOf .reset true)
  | .advanceRunIdle0 => .pattern (patternOf .runIdle false)
  | .advanceRunIdle1 => .pattern (patternOf .runIdle true)
  | .advanceSelectIR0 => .pattern (patternOf .selectIR false)
  | .advanceSelectIR1 => .pattern (patternOf .selectIR true)
  | .advanceCaptureIR0 => .pattern (patternOf .captureIR false)
  | .advanceCaptureIR1 => .pattern (patternOf .captureIR true)
  | .advanceShiftIR0 => .pattern (patternOf .shiftIR false)
  | .advanceShiftIR1 => .pattern (patternOf .shiftIR true)
  | .advanceExit1IR0 => .pattern (patternOf .exit1IR false)
  | .advanceExit1IR1 => .pattern (patternOf .exit1IR true)
  | .advancePauseIR0 => .pattern (patternOf .pauseIR false)
  | .advancePauseIR1 => .pattern (patternOf .pauseIR true)
  | .advanceExit2IR0 => .pattern (patternOf .exit2IR false)
  | .advanceExit2IR1 => .pattern (patternOf .exit2IR true)
  | .advanceUpdateIR0 => .pattern (patternOf .updateIR false)
  | .advanceUpdateIR1 => .pattern (patternOf .updateIR true)
  | .advanceSelectDR0 => .pattern (patternOf .selectDR false)
  | .advanceSelectDR1 => .pattern (patternOf .selectDR true)
  | .advanceCaptureDR0 => .pattern (patternOf .captureDR false)
  | .advanceCaptureDR1 => .pattern (patternOf .captureDR true)
  | .advanceShiftDR0 => .pattern (patternOf .shiftDR false)
  | .advanceShiftDR1 => .pattern (patternOf .shiftDR true)
  | .advanceExit1DR0 => .pattern (patternOf .exit1DR false)
  | .advanceExit1DR1 => .pattern (patternOf .exit1DR true)
  | .advancePauseDR0 => .pattern (patternOf .pauseDR false)
  | .advancePauseDR1 => .pattern (patternOf .pauseDR true)
  | .advanceExit2DR0 => .pattern (patternOf .exit2DR false)
  | .advanceExit2DR1 => .pattern (patternOf .exit2DR true)
  | .advanceUpdateDR0 => .pattern (patternOf .updateDR false)
  | .advanceUpdateDR1 => .pattern (patternOf .updateDR true)
  | .reset0 => .request (.reset 0)
  | .reset1 => .request (.reset 1)
  | .reset2 => .request (.reset 2)
  | .resetOther value => .request (.reset value)
  | .busReset => .busReset
  | .eepromWrite subCode payload => .request (.eepromWrite subCode payload)
  | .eepromErase subCode payload => .request (.eepromErase subCode payload)
  | .eepromRead subCode => .request (.eepromRead subCode)
  | .modemStatusQuery => .request .modemStatusQuery
  | .latencyTimerQuery => .request .latencyTimerQuery
  | .vendorOther request payload => .request (.other request payload)

/-! ## Words as the opcode table numbers them -/

/-- What a table word is: a pattern where it has at most five bits (format `tap`), a stream byte where it has up to
eight. The control rows have no bits in the table and no word stands for them (30_encoding.md R95; log 30). -/
def tableCode (nbits w : Nat) : Option Code :=
  if nbits = 0 then none
  else if nbits ≤ 5 then some (.pattern (BitVec.ofNat 5 w))
  else if nbits ≤ 8 then some (.byte (BitVec.ofNat 8 w))
  else none

/-- The instruction the decoder reads from a table word, with the selector of a machine right after reset, where the
next byte is a command (log 30). -/
def decodeTableWord (nbits w : Nat) : Option Instr :=
  (tableCode nbits w).map (decode Params.nominal Selector.command)

end Sys2Proof
end

