-- ==== Sys2Proof/Machine/State.lean ====
section
/-! DEFINITION. The state of the machine as plain data: the block's five registers, the two FIFOs, the framer's
state, the pins, the parameters, what one invocation of `process` remembers, the environment's inputs, and the
records a model keeps of what can be observed (10_state.md; 00_scope.md R11, R12, R17). -/

namespace Sys2Proof.Machine

/-- The field `tap` (10_state.md R20, R23): one of the sixteen TAP states, or the terminal `Fault`. -/
inductive TapState where
  | running (c : TapCtl)
  | fault
  deriving DecidableEq, Repr

/-- The three outputs (10_state.md R40). The input `TDO` holds no level of its own. -/
inductive Pin where
  | tdi | tms | tck
  deriving DecidableEq, Repr

/-- The levels the three outputs hold (10_state.md R37). -/
structure Pins where
  tdi : Level
  tms : Level
  tck : Level
  deriving DecidableEq, Repr

/-- A pin operation as the trace records it (41_pin_sequencer.md R140). -/
inductive PinEvent where
  /-- `Set(p, l)` -/
  | set (p : Pin) (l : Level)
  /-- `Read(TDO, l)` -/
  | read (l : Level)
  /-- `Fail(Set(p, l))` -/
  | failSet (p : Pin) (l : Level)
  /-- `Fail(Read(TDO))` -/
  | failRead
  deriving DecidableEq, Repr

/-- One answer of the oracles to one pin operation (00_scope.md R12; log 3). -/
inductive PinAnswer where
  /-- The operation succeeds; a sense finds the level `tdo`, a drive does not look at it (93 U7). -/
  | done (tdo : Level)
  /-- The operation fails; a failed drive leaves the requested level if `moved`, the old one if not (93 U5). -/
  | failed (moved : Bool)
  deriving DecidableEq, Repr

/-- The framer's state (10_state.md R36). -/
inductive FramerState where
  | idle | justReset
  deriving DecidableEq, Repr

/-- The closed set of conditions (60_exceptions.md R260). -/
inductive Condition where
  | transientWouldBlock | pinFault | framingFault | unrecognizedVendorRequest
  deriving DecidableEq, Repr

/-- What a call of the execution context returned, or the answer to a control request. -/
inductive Report where
  /-- `process` returned `Done(consumed)` (44_batch_processing.md R204). -/
  | done (consumed : Nat)
  /-- One of the four conditions (60_exceptions.md R260). -/
  | condition (c : Condition)
  /-- The inbound read appended `count` bytes (45_control_and_framer.md R230). -/
  | took (count : Nat)
  /-- The outbound write had no reason to send (R231). -/
  | skipped
  /-- The transport accepted `count` bytes of the frame, two or more (R232). -/
  | sent (count : Nat)
  /-- `control-accept` (R220 to R223). -/
  | accepted
  /-- Accepted with an empty/zero response (R226). -/
  | acceptedEmpty
  /-- `control-reject` (R224). -/
  | rejected
  /-- A canned value of the external data provider (R225). -/
  | canned (bytes : List Byte)
  /-- The result of a lookup of `advance` (40_tap_advance.md R110; log 29). -/
  | lookup (next : TapCtl)
  deriving DecidableEq, Repr

/-- The arguments of an outbound write: the heartbeat, and how many bytes the transport is ready to accept. -/
structure WriteCall where
  heartbeat : Bool
  accepts : Nat
  deriving DecidableEq, Repr

/-- A call the environment makes between two invocations of `process` (00_scope.md R11; 20_memory.md R56). -/
inductive Call where
  /-- Invoke the interpreter (44_batch_processing.md R200). -/
  | process
  /-- The framer's inbound read, with the bytes the transport offers (45_control_and_framer.md R230; log 27). -/
  | read (offered : List Byte)
  /-- The framer's outbound write (R231, R232). -/
  | write (w : WriteCall)
  /-- One poll cycle: read, process, write (R234; log 28). -/
  | poll (offered : List Byte) (w : WriteCall)
  /-- A control request (R220 to R226). -/
  | control (r : ControlRequest)
  /-- A USB bus reset (R228). -/
  | busReset
  /-- The full reset the caller forces after a fault (70_reset_and_hazards.md R302 (4)). -/
  | forcedReset
  /-- Power loss and bring-up; the environment says at which levels the pins come up (R306, 93 U6; log 37). -/
  | bringUp (levels : Pins)
  /-- A lookup of the TAP table entry with this pattern (30_encoding.md R96; log 29). -/
  | lookup (w : BitVec 5)
  deriving DecidableEq, Repr

/-- Whether an invocation of `process` is under way, and what it remembers: how many bytes it has consumed
(44_batch_processing.md R200), and the write that the poll cycle it belongs to makes when it is done. -/
inductive Phase where
  | idle
  | batch (consumed : Nat) (after : Option WriteCall)
  deriving DecidableEq, Repr

/-- A byte handled to its end counts in the batch it is handled in. -/
def Phase.countByte : Phase → Phase
  | .idle => .idle
  | .batch consumed after => .batch (consumed + 1) after

/-- The reasons the machine stops. There is none: every fault of this hardware is a next state (60_exceptions.md
R262, R263; 44_batch_processing.md R204), so the type has no constructor. Safe. -/
inductive Fault where
  deriving DecidableEq, Repr

/-- The reasons the model gives an instruction no meaning. -/
inductive Refusal where
  /-- Raised by an arm of `exec` whose instruction is not modelled yet; no arm is. Safe. -/
  | notModelled (mnemonic : String)
  deriving DecidableEq, Repr

end Sys2Proof.Machine

namespace Sys2Proof.Machine

structure State where
  /-- The model arguments of 00_scope.md R7; no step writes them (log 6). -/
  params : Params
  /-- `tap` (10_state.md R23). -/
  tap : TapState
  /-- `shift_remaining` (R24). -/
  shiftRemaining : BitVec 6
  /-- `shift_register` (R25). -/
  shiftRegister : Byte
  /-- `read_enabled` (R26). -/
  readEnabled : Bool
  /-- `clock_latched` (R27). -/
  clockLatched : Bool
  /-- `inbound`, oldest byte first (R31). -/
  inbound : List Byte
  /-- `outbound`, oldest byte first (R32). -/
  outbound : List Byte
  /-- `framer_state` (R36). -/
  framerState : FramerState
  /-- The levels the outputs hold (R37). -/
  pins : Pins
  /-- The invocation of `process` under way, if any (44_batch_processing.md R200). -/
  phase : Phase
  /-- The calls the environment still makes, next first (log 1). -/
  agenda : List Call
  /-- A fault was returned to the caller, which must force a full reset (70_reset_and_hazards.md R300 (d); log 34). -/
  resetOwed : Bool
  /-- The oracles' answers to the next pin operations, next first (log 3). -/
  pinAnswers : List PinAnswer
  /-- How many pin operations were made: the argument of the free answers (log 3). -/
  pinOps : Nat
  /-- The pin-event trace, oldest event first (41_pin_sequencer.md R140). -/
  trace : List PinEvent
  /-- The response stream, oldest byte first (00_scope.md R17 (b)). -/
  responses : List Byte
  /-- What the calls returned, oldest first (R17 (c), (d)). -/
  reports : List Report
  /-- The accepted bytes of each outbound transfer, oldest transfer first (45_control_and_framer.md R232). -/
  wire : List (List Byte)
  deriving DecidableEq, Repr

/-- What a step, or the meaning of an instruction, answers. -/
abbrev Answer := Host.Outcome State Fault Refusal

/-- What a sequence of pin operations ends in: a value and the state, or the state at the first failed operation
(41_pin_sequencer.md R149). -/
inductive Attempt (α : Type) where
  | ok (a : α) (s : State)
  | failed (s : State)

/-- The machine right after bring-up (10_state.md R39; log 5, 6, 19). -/
def State.reset : State :=
  { params := Params.nominal
    tap := .running .reset
    shiftRemaining := 0
    shiftRegister := 0
    readEnabled := false
    clockLatched := false
    inbound := []
    outbound := []
    framerState := .justReset
    pins := { tdi := Config.powerUpTdi, tms := Config.powerUpTms, tck := Config.powerUpTck }
    phase := .idle
    agenda := []
    resetOwed := false
    pinAnswers := []
    pinOps := 0
    trace := []
    responses := []
    reports := []
    wire := [] }

end Sys2Proof.Machine
end

