-- ==== Sys2Proof/Machine/Tap.lean ====
section
/-! DEFINITION. The TAP state machine: the one table `advance` (40_tap_advance.md). -/

namespace Sys2Proof.Machine

/-- `advance(state, mode_bit)`, total over the 16 states and both mode bits (R110), one pair of entries for each of
R111 to R126. Seven entries are the source's, twenty-five the spec's from general knowledge (93 G1; log 10). -/
def advance : TapCtl → Level → TapCtl
  | .reset, false => .runIdle        -- R111
  | .reset, true => .reset
  | .runIdle, false => .runIdle      -- R112
  | .runIdle, true => .selectDR
  | .selectDR, false => .captureDR   -- R113
  | .selectDR, true => .selectIR
  | .captureDR, false => .shiftDR    -- R114
  | .captureDR, true => .exit1DR
  | .shiftDR, false => .shiftDR      -- R115
  | .shiftDR, true => .exit1DR
  | .exit1DR, false => .pauseDR      -- R116
  | .exit1DR, true => .updateDR
  | .pauseDR, false => .pauseDR      -- R117
  | .pauseDR, true => .exit2DR
  | .exit2DR, false => .shiftDR      -- R118
  | .exit2DR, true => .updateDR
  | .updateDR, false => .runIdle     -- R119
  | .updateDR, true => .selectDR
  | .selectIR, false => .captureIR   -- R120
  | .selectIR, true => .reset
  | .captureIR, false => .shiftIR    -- R121
  | .captureIR, true => .exit1IR
  | .shiftIR, false => .shiftIR      -- R122
  | .shiftIR, true => .exit1IR
  | .exit1IR, false => .pauseIR      -- R123
  | .exit1IR, true => .updateIR
  | .pauseIR, false => .pauseIR      -- R124
  | .pauseIR, true => .exit2IR
  | .exit2IR, false => .shiftIR      -- R125
  | .exit2IR, true => .updateIR
  | .updateIR, false => .runIdle     -- R126
  | .updateIR, true => .selectDR

/-- `advance` over the seventeen symbols: `Fault` is terminal (R127; decision D19, log 12). No rule reaches it. -/
def TapState.advance : TapState → Level → TapState
  | .running c, modeBit => .running (Machine.advance c modeBit)
  | .fault, _ => .fault

end Sys2Proof.Machine
end

