-- ==== Sys2Proof/Machine/Flags.lean ====
section
/-! DEFINITION. The two mode flags (10_state.md R34): the release detector, which owns `clock_latched`, and the
cached READ bit. -/

namespace Sys2Proof.Machine

/-- A release: "previously latched high, now requested low" (41_pin_sequencer.md R145). -/
def State.releases (s : State) (tck : Level) : Bool := s.clockLatched && !tck

/-- `DetectRelease(tms, tck)` (R145): one transition at a release, with the mode-select level of the releasing
byte; the requested clock level is latched. -/
def detectRelease (tms tck : Level) (s : State) : State :=
  { s with
    tap := if s.releases tck then s.tap.advance tms else s.tap
    clockLatched := tck }

/-- A SHIFT command loads the count and caches its READ bit (42_command_bytes.md R162, R163). -/
def openBurst (count : BitVec 6) (read : Bool) (s : State) : State :=
  { s with shiftRemaining := count, readEnabled := read }

end Sys2Proof.Machine
end

