-- ==== Sys2Proof/Machine/Operands.lean ====
section
/-! DEFINITION. The operands of the byte forms and the block's arithmetic (43_data_bytes.md R182). -/

namespace Sys2Proof.Machine

/-- What a stream byte is read under (30_encoding.md R81). -/
def State.selector (s : State) : Selector := { remaining := s.shiftRemaining, read := s.readEnabled }

/-- The level of one output. -/
def Pins.level (pins : Pins) : Pin → Level
  | .tdi => pins.tdi
  | .tms => pins.tms
  | .tck => pins.tck

/-- The pins with one output at a new level. -/
def Pins.drive (pins : Pins) (p : Pin) (l : Level) : Pins :=
  match p with
  | .tdi => { pins with tdi := l }
  | .tms => { pins with tms := l }
  | .tck => { pins with tck := l }

/-- `(zext_8(t) << TDO_RESP_BIT) | MARKER_MASK` (30_encoding.md R91). -/
def bitBangResponse (p : Params) (t : Level) : Byte :=
  ((BitVec.ofBool t).setWidth 8 <<< p.tdoRespBit.val) ||| p.markerMask

/-- `(t << 7) | (shift_register >> 1)` (41_pin_sequencer.md R146). -/
def shiftIn (t : Level) (r : Byte) : Byte := ((BitVec.ofBool t).setWidth 8 <<< 7) ||| (r >>> 1)

/-- `shift_remaining - 1`, made only while it is at least 1 (R182 (a)). -/
def countDown (n : BitVec 6) : BitVec 6 := n - 1

/-- The modem-status pair in front of the payload (45_control_and_framer.md R232). -/
def State.frame (s : State) : List Byte := s.params.modemStatus0 :: s.params.modemStatus1 :: s.outbound

end Sys2Proof.Machine
end

