-- ==== Sys2Proof/Machine/Ops.lean ====
section
/-! DEFINITION. The operations the meanings share: the FIFO primitives (20_memory.md R51, R53), the pin operations
and their sequences (41_pin_sequencer.md), raising a `PinFault` and the full reset that is the only way back
(60_exceptions.md R262, R266; 70_reset_and_hazards.md R301). -/

namespace Sys2Proof.Machine

/-! ## The FIFOs -/

def State.inLen (s : State) : Nat := s.inbound.length
def State.outLen (s : State) : Nat := s.outbound.length

/-- `OutFree() = OUT_CAP - OutLen()` (R53). -/
def State.outFree (s : State) : Nat := s.params.outCap - s.outLen

/-- `InPop()`: the oldest byte goes (R51); its batch counts it (44_batch_processing.md R200). -/
def State.popByte (s : State) : State := { s with inbound := s.inbound.tail, phase := s.phase.countByte }

/-- `OutPush(b)`, made only when `OutFree() >= 1` (R53; log 35); the response stream records the byte. -/
def State.pushResponse (s : State) (b : Byte) : State :=
  { s with outbound := s.outbound ++ [b], responses := s.responses ++ [b] }

/-- The caller gets a result, or the host an answer. -/
def State.report (s : State) (r : Report) : State := { s with reports := s.reports ++ [r] }

/-! ## Pin operations -/

/-- The answer of the oracles to the pin operation `n` operations from now: the listed one, or a free one (log 3). -/
def State.answerAt (s : State) (n : Nat) : PinAnswer :=
  match s.pinAnswers[n]? with
  | some a => a
  | none =>
    if Config.freePinOk (s.pinOps + n) then .done (Config.freeTdo (s.pinOps + n))
    else .failed (Config.freeMoved (s.pinOps + n))

/-- One operation is made: its answer is used up and its event stands in the trace (R140). -/
def State.operate (s : State) (e : PinEvent) : State :=
  { s with pinAnswers := s.pinAnswers.tail, pinOps := s.pinOps + 1, trace := s.trace ++ [e] }

def State.drive (s : State) (p : Pin) (l : Level) : State := { s with pins := s.pins.drive p l }

/-- `PinSet(p, l)` (R141). After a failed drive the pin is at the old level or at `l` (93 U5; log 4). -/
def pinSet (p : Pin) (l : Level) (s : State) : Attempt Unit :=
  match s.answerAt 0 with
  | .done _ => .ok () ((s.operate (.set p l)).drive p l)
  | .failed true => .failed ((s.operate (.failSet p l)).drive p l)
  | .failed false => .failed (s.operate (.failSet p l))

/-- `PinRead(TDO)` (R142). -/
def pinRead (s : State) : Attempt Level :=
  match s.answerAt 0 with
  | .done t => .ok t (s.operate (.read t))
  | .failed _ => .failed (s.operate .failRead)

/-- The next operation of a sequence, made only if those before it succeeded (R149). -/
def Attempt.andThen {α β : Type} (x : Attempt α) (f : α → State → Attempt β) : Attempt β :=
  match x with
  | .ok a s => f a s
  | .failed s => .failed s

/-- A state write that cannot fail, after a sequence that succeeded. -/
def Attempt.update {α : Type} (x : Attempt α) (f : α → State → State) : Attempt Unit :=
  match x with
  | .ok a s => .ok () (f a s)
  | .failed s => .failed s

/-- `ApplyLevels(tdi, tms, tck)` (R143): data-in, mode-select, clock, all three every time (decision D5, log 14). -/
def applyLevels (tdi tms tck : Level) (s : State) : Attempt Unit :=
  (pinSet .tdi tdi s).andThen fun _ s =>
  (pinSet .tms tms s).andThen fun _ s =>
  pinSet .tck tck s

/-- The sample of a pulse: sensed if `read`, else 0 with no sense at all (R146; decision D13, log 16). -/
def sample (read : Bool) (s : State) : Attempt Level :=
  if read then pinRead s else .ok false s

/-- `Pulse(read)` (R146): present the outgoing bit, sample, assert, release, shift the sample in. -/
def pulse (read : Bool) (s : State) : Attempt Unit :=
  (pinSet .tdi (s.shiftRegister.getLsbD 0) s).andThen fun _ s =>
  (sample read s).andThen fun t s =>
  (pinSet .tck true s).andThen fun _ s =>
  (pinSet .tck false s).update fun _ s => { s with shiftRegister := shiftIn t s.shiftRegister }

/-- `n` pulses one after the other (R147). -/
def pulses (read : Bool) : Nat → State → Attempt Unit
  | 0, s => .ok () s
  | n + 1, s => (pulse read s).andThen fun _ s => pulses read n s

/-! ## Faults, and the way back -/

/-- `process` returns `PinFault`: the batch is over, the write of its poll cycle is not made (45 R234, 60 R269), and
the caller owes a full reset (R266). -/
def State.returnPinFault (s : State) : State :=
  { s with phase := .idle, resetOwed := true, reports := s.reports ++ [.condition .pinFault] }

/-- `raise PinFault` (60_exceptions.md R262): `tap <- Fault` and the failure goes to the caller. Nothing is saved
and nothing unwound; the byte stays in `inbound` (44_batch_processing.md R206). -/
def State.raisePinFault (s : State) : State := State.returnPinFault { s with tap := .fault }

/-- `raise FramingFault` (R263): reported to the caller, which owes a full reset; `tap` is not touched. -/
def State.raiseFramingFault (s : State) : State :=
  { s with resetOwed := true, reports := s.reports ++ [.condition .framingFault] }

/-- `FullReset()` (70_reset_and_hazards.md R301), the only return from a fault (60 R266). It drives no pin (R303). -/
def State.fullReset (s : State) : State :=
  { s with
    tap := .running .reset
    shiftRemaining := 0
    shiftRegister := 0
    readEnabled := false
    clockLatched := false
    inbound := []
    outbound := []
    framerState := .justReset
    resetOwed := false }

/-- A byte handled to its end is popped; a byte whose handling failed raises `PinFault` and is not (R206). -/
def finishByte (x : Attempt Unit) : State :=
  match x with
  | .ok _ s => s.popByte
  | .failed s => s.raisePinFault

end Sys2Proof.Machine
end

