-- ==== Sys2Proof/Machine/Advance.lean ====
section
/-! DEFINITION. The 32 rows `advance.<state>.<mode_bit>` (40_tap_advance.md R110 to R126). The lookup is pure: it
writes no state of the block; its result is reported (log 29). -/

namespace Sys2Proof.Machine

/-- A lookup of `advance` answers the next state and changes nothing else (R110). -/
def lookup (c : TapCtl) (modeBit : Level) (s : State) : Answer := .next (s.report (.lookup (advance c modeBit)))

/-- `advance.Reset.0` (R111). -/
def execAdvanceReset0 (s : State) : Answer := lookup .reset false s

/-- `advance.Reset.1` (R111). -/
def execAdvanceReset1 (s : State) : Answer := lookup .reset true s

/-- `advance.RunIdle.0` (R112). -/
def execAdvanceRunIdle0 (s : State) : Answer := lookup .runIdle false s

/-- `advance.RunIdle.1` (R112). -/
def execAdvanceRunIdle1 (s : State) : Answer := lookup .runIdle true s

/-- `advance.SelectIR.0` (R120). -/
def execAdvanceSelectIR0 (s : State) : Answer := lookup .selectIR false s

/-- `advance.SelectIR.1` (R120). -/
def execAdvanceSelectIR1 (s : State) : Answer := lookup .selectIR true s

/-- `advance.CaptureIR.0` (R121). -/
def execAdvanceCaptureIR0 (s : State) : Answer := lookup .captureIR false s

/-- `advance.CaptureIR.1` (R121). -/
def execAdvanceCaptureIR1 (s : State) : Answer := lookup .captureIR true s

/-- `advance.ShiftIR.0` (R122). -/
def execAdvanceShiftIR0 (s : State) : Answer := lookup .shiftIR false s

/-- `advance.ShiftIR.1` (R122). -/
def execAdvanceShiftIR1 (s : State) : Answer := lookup .shiftIR true s

/-- `advance.Exit1IR.0` (R123). -/
def execAdvanceExit1IR0 (s : State) : Answer := lookup .exit1IR false s

/-- `advance.Exit1IR.1` (R123). -/
def execAdvanceExit1IR1 (s : State) : Answer := lookup .exit1IR true s

/-- `advance.PauseIR.0` (R124). -/
def execAdvancePauseIR0 (s : State) : Answer := lookup .pauseIR false s

/-- `advance.PauseIR.1` (R124). -/
def execAdvancePauseIR1 (s : State) : Answer := lookup .pauseIR true s

/-- `advance.Exit2IR.0` (R125). -/
def execAdvanceExit2IR0 (s : State) : Answer := lookup .exit2IR false s

/-- `advance.Exit2IR.1` (R125). -/
def execAdvanceExit2IR1 (s : State) : Answer := lookup .exit2IR true s

/-- `advance.UpdateIR.0` (R126). -/
def execAdvanceUpdateIR0 (s : State) : Answer := lookup .updateIR false s

/-- `advance.UpdateIR.1` (R126). -/
def execAdvanceUpdateIR1 (s : State) : Answer := lookup .updateIR true s

/-- `advance.SelectDR.0` (R113). -/
def execAdvanceSelectDR0 (s : State) : Answer := lookup .selectDR false s

/-- `advance.SelectDR.1` (R113). -/
def execAdvanceSelectDR1 (s : State) : Answer := lookup .selectDR true s

/-- `advance.CaptureDR.0` (R114). -/
def execAdvanceCaptureDR0 (s : State) : Answer := lookup .captureDR false s

/-- `advance.CaptureDR.1` (R114). -/
def execAdvanceCaptureDR1 (s : State) : Answer := lookup .captureDR true s

/-- `advance.ShiftDR.0` (R115). -/
def execAdvanceShiftDR0 (s : State) : Answer := lookup .shiftDR false s

/-- `advance.ShiftDR.1` (R115). -/
def execAdvanceShiftDR1 (s : State) : Answer := lookup .shiftDR true s

/-- `advance.Exit1DR.0` (R116). -/
def execAdvanceExit1DR0 (s : State) : Answer := lookup .exit1DR false s

/-- `advance.Exit1DR.1` (R116). -/
def execAdvanceExit1DR1 (s : State) : Answer := lookup .exit1DR true s

/-- `advance.PauseDR.0` (R117). -/
def execAdvancePauseDR0 (s : State) : Answer := lookup .pauseDR false s

/-- `advance.PauseDR.1` (R117). -/
def execAdvancePauseDR1 (s : State) : Answer := lookup .pauseDR true s

/-- `advance.Exit2DR.0` (R118). -/
def execAdvanceExit2DR0 (s : State) : Answer := lookup .exit2DR false s

/-- `advance.Exit2DR.1` (R118). -/
def execAdvanceExit2DR1 (s : State) : Answer := lookup .exit2DR true s

/-- `advance.UpdateDR.0` (R119). -/
def execAdvanceUpdateDR0 (s : State) : Answer := lookup .updateDR false s

/-- `advance.UpdateDR.1` (R119). -/
def execAdvanceUpdateDR1 (s : State) : Answer := lookup .updateDR true s

end Sys2Proof.Machine
end

