-- ==== Sys2Proof/Machine/BitBang.lean ====
section
/-! DEFINITION. Bit-bang command bytes (42_command_bytes.md R160, R161). -/

namespace Sys2Proof.Machine

/-- The levels go to the pins, then the release detector runs (R160). -/
def bitBang (tck tms tdi : Level) (s : State) : Attempt Unit :=
  (applyLevels tdi tms tck s).update fun _ s => detectRelease tms tck s

/-- `BB` (R160). -/
def execBb (tck tms tdi : Level) (s : State) : Answer := .next (finishByte (bitBang tck tms tdi s))

/-- `BBR` (R161): as `BB`, then sense and push one response byte (decision D7, log 15). -/
def execBbr (tck tms tdi : Level) (s : State) : Answer :=
  .next (finishByte
    (((bitBang tck tms tdi s).andThen fun _ s => pinRead s).update fun t s =>
      s.pushResponse (bitBangResponse s.params t)))

end Sys2Proof.Machine
end

