-- ==== Sys2Proof/Machine/Burst.lean ====
section
/-! DEFINITION. Shift commands (42_command_bytes.md R162, R163) and the data bytes of the burst they open
(43_data_bytes.md R180, R181). -/

namespace Sys2Proof.Machine

/-- `SHIFT` (R162): no pin operation, no response. -/
def execShift (count : BitVec 6) (s : State) : Answer := .next (openBurst count false s).popByte

/-- `SHIFTR` (R163): no pin operation, no response of its own (R165). -/
def execShiftr (count : BitVec 6) (s : State) : Answer := .next (openBurst count true s).popByte

/-- A data byte is loaded and shifted through eight pulses (R180, R181). -/
def shiftByte (read : Bool) (d : Byte) (s : State) : Attempt Unit :=
  pulses read 8 { s with shiftRegister := d }

/-- The end of a data byte: the clock was last driven low, and the burst has one byte less to go (R180, R185). -/
def closeDataByte (s : State) : State :=
  { s with clockLatched := false, shiftRemaining := countDown s.shiftRemaining }

/-- `DATA` (R180). `tap` is not advanced (R184; decision D14, log 17). -/
def execData (d : Byte) (s : State) : Answer :=
  .next (finishByte ((shiftByte false d s).update fun _ s => closeDataByte s))

/-- `DATAR` (R181): the eight samples are the response. -/
def execDatar (d : Byte) (s : State) : Answer :=
  .next (finishByte ((shiftByte true d s).update fun _ s => closeDataByte (s.pushResponse s.shiftRegister)))

end Sys2Proof.Machine
end

