-- ==== Sys2Proof/Machine/Control.lean ====
section
/-! DEFINITION. The control channel (45_control_and_framer.md R220 to R228). -/

namespace Sys2Proof.Machine

/-- `RESET(0)` (R220): full reset, accepted. -/
def execReset0 (s : State) : Answer := .next (s.fullReset.report .accepted)

/-- `RESET(1)` (R221): purge inbound, accepted. The selector and the batch state are kept. -/
def execReset1 (s : State) : Answer := .next (State.report { s with inbound := [] } .accepted)

/-- `RESET(2)` (R222): purge outbound, accepted. -/
def execReset2 (s : State) : Answer := .next (State.report { s with outbound := [] } .accepted)

/-- `RESET(v)` for any other `v` (R223): no operation, accepted. -/
def execResetOther (_value : Nat) (s : State) : Answer := .next (s.report .accepted)

/-- A bus reset (R228): full reset; there is no request to answer. -/
def execBusReset (s : State) : Answer := .next s.fullReset

/-- EEPROM write (R224): rejected, whatever the sub-code and payload. -/
def execEepromWrite (_subCode : Nat) (_payload : List Byte) (s : State) : Answer := .next (s.report .rejected)

/-- EEPROM erase (R224): rejected, whatever the sub-code and payload. -/
def execEepromErase (_subCode : Nat) (_payload : List Byte) (s : State) : Answer := .next (s.report .rejected)

/-- EEPROM read (R225): a canned value of the external data provider, which the spec does not give (log 9). -/
def execEepromRead (subCode : Nat) (s : State) : Answer := .next (s.report (.canned (Config.eepromImage subCode)))

/-- Modem-status query (R225): a canned value (log 9). -/
def execModemStatusQuery (s : State) : Answer := .next (s.report (.canned Config.modemStatusAnswer))

/-- Latency-timer query (R225): a canned value, no timer is read (60_exceptions.md R273; log 9). -/
def execLatencyTimerQuery (s : State) : Answer := .next (s.report (.canned Config.latencyTimerAnswer))

/-- Any other vendor request (R226): the condition `UnrecognizedVendorRequest`, which is no error (60 R264), and
acceptance with an empty response. -/
def execVendorOther (_request : Nat) (_payload : List Byte) (s : State) : Answer :=
  .next ((s.report (.condition .unrecognizedVendorRequest)).report .acceptedEmpty)

end Sys2Proof.Machine
end

