-- ==== Sys2Proof/Machine/Dispatch.lean ====
section
/-! DEFINITION. Which meaning each instruction has. -/

namespace Sys2Proof.Machine

def exec (i : Instr) (s : State) : Host.Outcome State Fault Refusal :=
  match i with
  -- stream bytes (42_command_bytes.md, 43_data_bytes.md)
  | .bb tck tms tdi => Sys2Proof.Machine.execBb tck tms tdi s
  | .bbr tck tms tdi => Sys2Proof.Machine.execBbr tck tms tdi s
  | .shift count => Sys2Proof.Machine.execShift count s
  | .shiftr count => Sys2Proof.Machine.execShiftr count s
  | .data d => Sys2Proof.Machine.execData d s
  | .datar d => Sys2Proof.Machine.execDatar d s
  -- entries of the TAP table (40_tap_advance.md)
  | .advanceReset0 => Sys2Proof.Machine.execAdvanceReset0 s
  | .advanceReset1 => Sys2Proof.Machine.execAdvanceReset1 s
  | .advanceRunIdle0 => Sys2Proof.Machine.execAdvanceRunIdle0 s
  | .advanceRunIdle1 => Sys2Proof.Machine.execAdvanceRunIdle1 s
  | .advanceSelectIR0 => Sys2Proof.Machine.execAdvanceSelectIR0 s
  | .advanceSelectIR1 => Sys2Proof.Machine.execAdvanceSelectIR1 s
  | .advanceCaptureIR0 => Sys2Proof.Machine.execAdvanceCaptureIR0 s
  | .advanceCaptureIR1 => Sys2Proof.Machine.execAdvanceCaptureIR1 s
  | .advanceShiftIR0 => Sys2Proof.Machine.execAdvanceShiftIR0 s
  | .advanceShiftIR1 => Sys2Proof.Machine.execAdvanceShiftIR1 s
  | .advanceExit1IR0 => Sys2Proof.Machine.execAdvanceExit1IR0 s
  | .advanceExit1IR1 => Sys2Proof.Machine.execAdvanceExit1IR1 s
  | .advancePauseIR0 => Sys2Proof.Machine.execAdvancePauseIR0 s
  | .advancePauseIR1 => Sys2Proof.Machine.execAdvancePauseIR1 s
  | .advanceExit2IR0 => Sys2Proof.Machine.execAdvanceExit2IR0 s
  | .advanceExit2IR1 => Sys2Proof.Machine.execAdvanceExit2IR1 s
  | .advanceUpdateIR0 => Sys2Proof.Machine.execAdvanceUpdateIR0 s
  | .advanceUpdateIR1 => Sys2Proof.Machine.execAdvanceUpdateIR1 s
  | .advanceSelectDR0 => Sys2Proof.Machine.execAdvanceSelectDR0 s
  | .advanceSelectDR1 => Sys2Proof.Machine.execAdvanceSelectDR1 s
  | .advanceCaptureDR0 => Sys2Proof.Machine.execAdvanceCaptureDR0 s
  | .advanceCaptureDR1 => Sys2Proof.Machine.execAdvanceCaptureDR1 s
  | .advanceShiftDR0 => Sys2Proof.Machine.execAdvanceShiftDR0 s
  | .advanceShiftDR1 => Sys2Proof.Machine.execAdvanceShiftDR1 s
  | .advanceExit1DR0 => Sys2Proof.Machine.execAdvanceExit1DR0 s
  | .advanceExit1DR1 => Sys2Proof.Machine.execAdvanceExit1DR1 s
  | .advancePauseDR0 => Sys2Proof.Machine.execAdvancePauseDR0 s
  | .advancePauseDR1 => Sys2Proof.Machine.execAdvancePauseDR1 s
  | .advanceExit2DR0 => Sys2Proof.Machine.execAdvanceExit2DR0 s
  | .advanceExit2DR1 => Sys2Proof.Machine.execAdvanceExit2DR1 s
  | .advanceUpdateDR0 => Sys2Proof.Machine.execAdvanceUpdateDR0 s
  | .advanceUpdateDR1 => Sys2Proof.Machine.execAdvanceUpdateDR1 s
  -- the control channel (45_control_and_framer.md)
  | .reset0 => Sys2Proof.Machine.execReset0 s
  | .reset1 => Sys2Proof.Machine.execReset1 s
  | .reset2 => Sys2Proof.Machine.execReset2 s
  | .resetOther value => Sys2Proof.Machine.execResetOther value s
  | .busReset => Sys2Proof.Machine.execBusReset s
  | .eepromWrite subCode payload => Sys2Proof.Machine.execEepromWrite subCode payload s
  | .eepromErase subCode payload => Sys2Proof.Machine.execEepromErase subCode payload s
  | .eepromRead subCode => Sys2Proof.Machine.execEepromRead subCode s
  | .modemStatusQuery => Sys2Proof.Machine.execModemStatusQuery s
  | .latencyTimerQuery => Sys2Proof.Machine.execLatencyTimerQuery s
  | .vendorOther request payload => Sys2Proof.Machine.execVendorOther request payload s

end Sys2Proof.Machine
end

