-- ==== Sys2Proof/Machine/Batch.lean ====
section
/-! DEFINITION. The batch loop `process` (44_batch_processing.md R200), one turn a step. -/

namespace Sys2Proof.Machine

/-- `process()` is called (R200): refused while `tap = Fault` (R201), else the loop begins with nothing consumed. -/
def beginBatch (after : Option WriteCall) (s : State) : State :=
  if s.tap = .fault then s.returnPinFault else { s with phase := .batch 0 after }

/-- `process` returns `Done(consumed)` (R204); a poll cycle goes on with its write (45_control_and_framer.md R234). -/
def endBatch (consumed : Nat) (after : Option WriteCall) (s : State) : State :=
  match after with
  | none => State.report { s with phase := .idle } (.done consumed)
  | some w => State.report { s with phase := .idle, agenda := .write w :: s.agenda } (.done consumed)

/-- The instruction the block runs next, while a batch is under way: the oldest inbound byte, read under the present
selector (R207); none when the inbound FIFO is empty (R203) or the outbound FIFO is full (R202). -/
def State.nextByte (s : State) : Option Instr :=
  match s.inbound with
  | [] => none
  | b :: _ => if s.outFree = 0 then none else some (decode s.params s.selector (.byte b))

/-- One turn of the loop (R200). -/
def batchTurn (consumed : Nat) (after : Option WriteCall) (s : State) : Answer :=
  match s.nextByte with
  | none => .next (endBatch consumed after s)
  | some i => exec i s

end Sys2Proof.Machine
end

