-- ==== Sys2Proof/Machine/Framer.lean ====
section
/-! DEFINITION. The Packet Framer's data path (45_control_and_framer.md R230 to R233), the environment's side of the
two FIFOs. -/

namespace Sys2Proof.Machine

/-- Inbound read (R230): at most the free space of the inbound FIFO is taken of what the transport offers; refused
when it is full, and when nothing is pending (60_exceptions.md R261). What does not fit is the transport's
(decision D23, log 27). -/
def framerRead (offered : List Byte) (s : State) : State :=
  if s.params.inCap ≤ s.inLen then s.report (.condition .transientWouldBlock)
  else
    match offered.take (s.params.inCap - s.inLen) with
    | [] => s.report (.condition .transientWouldBlock)
    | b :: bs => State.report { s with inbound := s.inbound ++ b :: bs } (.took (bs.length + 1))

/-- Whether a write sends (R231). -/
def State.mustSend (s : State) (heartbeat : Bool) : Bool :=
  decide (0 < s.outLen) || heartbeat || decide (s.framerState = .justReset)

/-- How many bytes of the frame the transport accepts: what it is ready for, at most the whole frame. -/
def State.accepted (s : State) (w : WriteCall) : Nat := min w.accepts s.frame.length

/-- The transfer the host sees: the accepted bytes of the frame (R232). -/
def State.transfer (s : State) (count : Nat) : State := { s with wire := s.wire ++ [s.frame.take count] }

/-- Outbound write (R231, R232): nothing accepted is transient, exactly one byte is a framing fault, two or more
take the accepted payload bytes out of the FIFO and end `JustReset` (90_conflicts.md C2, C7; log 26). -/
def framerWrite (w : WriteCall) (s : State) : State :=
  if s.mustSend w.heartbeat then
    match s.accepted w with
    | 0 => s.report (.condition .transientWouldBlock)
    | 1 => (s.transfer 1).raiseFramingFault
    | k + 2 => State.report { s.transfer (k + 2) with outbound := s.outbound.drop k, framerState := .idle } (.sent (k + 2))
  else s.report .skipped

end Sys2Proof.Machine
end

