-- ==== Sys2Proof/Machine/Caller.lean ====
section
/-! DEFINITION. The caller between batches: the environment's calls, one a step (00_scope.md R11; 20_memory.md R56;
45_control_and_framer.md R227, R234). -/

namespace Sys2Proof.Machine

/-- Power loss and bring-up (70_reset_and_hazards.md R302 (1), R306): the full reset, with the pins at the levels the
environment says (93 U6; log 37). -/
def State.bringUp (s : State) (levels : Pins) : State := { s.fullReset with pins := levels }

/-- The instruction a call hands to the block, if it does: a control request, a bus reset, a lookup. -/
def Call.instr (s : State) : Call → Option Instr
  | .control r => some (decode s.params s.selector (.request r))
  | .busReset => some (decode s.params s.selector .busReset)
  | .lookup w => some (decode s.params s.selector (.pattern w))
  | .process | .read _ | .write _ | .poll _ _ | .forcedReset | .bringUp _ => none

/-- A call that hands no instruction over. A poll cycle reads, then processes, then writes (45 R234; log 28). -/
def Call.effect (s : State) : Call → State
  | .process => beginBatch none s
  | .read offered => framerRead offered s
  | .write w => framerWrite w s
  | .poll offered w => beginBatch (some w) (framerRead offered s)
  | .forcedReset => s.fullReset
  | .bringUp levels => s.bringUp levels
  | .control _ | .busReset | .lookup _ => s

/-- The caller makes a call. -/
def perform (c : Call) (s : State) : Answer :=
  match c.instr s with
  | some i => exec i s
  | none => .next (c.effect s)

/-- The caller's step between batches. A full reset it owes comes before anything else (70_reset_and_hazards.md
R300 (d); log 34); with nothing listed it calls `process` again (log 2). -/
def callerTurn (s : State) : Answer :=
  if s.resetOwed then .next s.fullReset
  else
    match s.agenda with
    | [] => .next (beginBatch none s)
    | c :: rest => perform c { s with agenda := rest }

/-- A table word's code put where the next step takes its instruction: a stream byte becomes the oldest inbound byte
of a running batch, a pattern the next call, which no owed reset precedes (log 30). -/
def State.placeCode (s : State) : Code → State
  | .byte b =>
    { s with
      inbound := b :: s.inbound.tail
      phase := match s.phase with
        | .idle => .batch 0 none
        | .batch consumed after => .batch consumed after }
  | .pattern w => { s with phase := .idle, resetOwed := false, agenda := .lookup w :: s.agenda }
  | .request r => { s with phase := .idle, resetOwed := false, agenda := .control r :: s.agenda }
  | .busReset => { s with phase := .idle, resetOwed := false, agenda := .busReset :: s.agenda }

end Sys2Proof.Machine
end

