-- ==== Sys2Proof/Machine/Step.lean ====
section
/-! DEFINITION. One step: one byte of a running batch, or one call of the environment (00_scope.md R9, R10). -/

namespace Sys2Proof.Machine

def step (s : State) : Host.Outcome State Fault Refusal :=
  match s.phase with
  | .batch consumed after => batchTurn consumed after s
  | .idle => callerTurn s

/-- `s` with the instruction of a table word where the next step takes it from; a word the table does not have
changes nothing (log 30). -/
def State.withFetchWord (s : State) (nbits w : Nat) : State :=
  match tableCode nbits w with
  | some c => s.placeCode c
  | none => s

end Sys2Proof.Machine
end

