-- ==== Sys2Proof/Safety.lean ====
section
/-! DEFINITION. What counts as a sound state and a safe run, and the words the statements about the machine are
written in: how the oracles will answer, which events a byte makes, what two states have in common. -/

namespace Sys2Proof.Machine

/-! ## The invariant -/

/-- No fault is outstanding: what a run has to keep to be safe (60_exceptions.md R265). -/
def State.faultFree (s : State) : Prop := s.tap ≠ .fault ∧ s.resetOwed = false

/-- A sound state: legal parameters, both FIFOs within their capacities (10_state.md R30), no batch under way while a
fault is outstanding (44_batch_processing.md R201; 70_reset_and_hazards.md R300 (d)), and a reset owed whenever
`tap = Fault` (R300 (d)). -/
structure State.Inv (s : State) : Prop where
  legal : s.params.legal = true
  inbound_le : s.inLen ≤ s.params.inCap
  outbound_le : s.outLen ≤ s.params.outCap
  batch_running : s.phase ≠ .idle → s.faultFree
  fault_owed : s.tap = .fault → s.resetOwed = true

/-! ## How the oracles will answer -/

def PinAnswer.isDone : PinAnswer → Bool
  | .done _ => true
  | .failed _ => false

/-- The level of `TDO` in an answer; nothing reads it off a failure. -/
def PinAnswer.tdo : PinAnswer → Level
  | .done t => t
  | .failed _ => false

/-- Whether a failed drive left the requested level. -/
def PinAnswer.moved : PinAnswer → Bool
  | .done _ => false
  | .failed moved => moved

/-- The next `n` pin operations succeed. -/
def State.allDone (s : State) (n : Nat) : Bool := (List.range n).all fun k => (s.answerAt k).isDone

/-- Of the pin operations to come, the one `k` operations from now is the first that fails. -/
def State.failsAt (s : State) (k : Nat) : Bool := s.allDone k && !(s.answerAt k).isDone

/-- The level of `TDO` at the pin operation `k` operations from now. -/
def State.tdoAt (s : State) (k : Nat) : Level := (s.answerAt k).tdo

/-! ## The events of a byte (20_memory.md R67) -/

/-- `Set TDI`, `Set TMS`, `Set TCK`. -/
def bitBangEvents (tck tms tdi : Level) : List PinEvent := [.set .tdi tdi, .set .tms tms, .set .tck tck]

/-- Eight times `Set TDI d[i]`, `Set TCK 1`, `Set TCK 0`. -/
def dataEvents (d : Byte) : List PinEvent :=
  (List.range 8).flatMap fun i => [.set .tdi (d.getLsbD i), .set .tck true, .set .tck false]

/-- Eight times `Set TDI d[i]`, `Read TDO t_i`, `Set TCK 1`, `Set TCK 0`. -/
def datarEvents (d : Byte) (t : Nat → Level) : List PinEvent :=
  (List.range 8).flatMap fun i => [.set .tdi (d.getLsbD i), .read (t i), .set .tck true, .set .tck false]

/-- The event of an operation that fails where it would have made `e` (41_pin_sequencer.md R140). -/
def PinEvent.failure : PinEvent → PinEvent
  | .set p l => .failSet p l
  | .read _ => .failRead
  | e => e

def PinEvent.isFailure : PinEvent → Bool
  | .failSet _ _ | .failRead => true
  | .set _ _ | .read _ => false

/-- The pin levels after an event: a `Set` puts its pin at its level (10_state.md R37). -/
def Pins.after (pins : Pins) : PinEvent → Pins
  | .set p l => pins.drive p l
  | _ => pins

/-- The pin operations of the events `evs` are made, and all succeed. -/
def State.made (s : State) (evs : List PinEvent) : State :=
  { s with
    pinAnswers := s.pinAnswers.drop evs.length
    pinOps := s.pinOps + evs.length
    trace := s.trace ++ evs
    pins := evs.foldl Pins.after s.pins }

/-- The operation that would have made the event `e` is made and fails; a failed drive may or may not have moved its
pin (93_implementation_defined.md U5). -/
def State.missed (s : State) (e : PinEvent) : State :=
  { s with
    pinAnswers := s.pinAnswers.tail
    pinOps := s.pinOps + 1
    trace := s.trace ++ [e.failure]
    pins := if (s.answerAt 0).moved then s.pins.after e else s.pins }

/-- The response `{t_7, t_6, t_5, t_4, t_3, t_2, t_1, t_0}` (41_pin_sequencer.md R147). -/
def samplesByte (t : Nat → Level) : Byte :=
  BitVec.ofBool (t 7) ++ BitVec.ofBool (t 6) ++ BitVec.ofBool (t 5) ++ BitVec.ofBool (t 4) ++
    BitVec.ofBool (t 3) ++ BitVec.ofBool (t 2) ++ BitVec.ofBool (t 1) ++ BitVec.ofBool (t 0)

/-- The shift register after `k` pulses on `d` with the samples `t` (R146, R147). -/
def registerAfter (d : Byte) (t : Nat → Level) : Nat → Byte
  | 0 => d
  | k + 1 => shiftIn (t k) (registerAfter d t k)

/-! ## What two states have in common -/

/-- The same block: parameters, registers, FIFOs, pins and oracles agree; what the caller does and what was recorded
may differ. -/
structure SameBlock (s t : State) : Prop where
  params : t.params = s.params
  tap : t.tap = s.tap
  shiftRemaining : t.shiftRemaining = s.shiftRemaining
  shiftRegister : t.shiftRegister = s.shiftRegister
  readEnabled : t.readEnabled = s.readEnabled
  clockLatched : t.clockLatched = s.clockLatched
  inbound : t.inbound = s.inbound
  outbound : t.outbound = s.outbound
  pins : t.pins = s.pins
  pinAnswers : t.pinAnswers = s.pinAnswers
  pinOps : t.pinOps = s.pinOps

/-- The same but for where the block believes the target's TAP controller is: `tap`, running or `Fault` in both, and
the latch that only `tap` depends on. -/
def SameButTap (s t : State) : Prop :=
  t = { s with tap := t.tap, clockLatched := t.clockLatched } ∧ (t.tap = .fault ↔ s.tap = .fault)

/-- A batch is under way. -/
def State.inBatch (s : State) : Prop := s.phase ≠ .idle

/-- A step that is a full reset of any of its sources (70_reset_and_hazards.md R302): the one the caller owes, or a
call that resets. -/
def State.resetsNext (s : State) : Prop :=
  s.phase = .idle ∧
    (s.resetOwed = true ∨ ∃ rest, s.agenda = .busReset :: rest ∨ s.agenda = .forcedReset :: rest ∨
      s.agenda = .control (.reset 0) :: rest ∨ ∃ levels, s.agenda = .bringUp levels :: rest)

/-! ## Words about instructions and tables -/

/-- The byte forms (30_encoding.md R86): the instructions that come from the inbound stream. -/
def isByte : Instr → Bool
  | .bb _ _ _ | .bbr _ _ _ | .shift _ | .shiftr _ | .data _ | .datar _ => true
  | _ => false

/-- Instructions executed one after the other. -/
def execAll : List Instr → State → Answer
  | [], s => .next s
  | i :: is, s =>
    match exec i s with
    | .next t => execAll is t
    | .fault r => .fault r
    | .refused r => .refused r

/-- One bit-bang command: `BBR` if `read`, else `BB` (30_encoding.md R82, R83). -/
structure BitBangCommand where
  read : Bool
  tck : Level
  tms : Level
  tdi : Level
  deriving DecidableEq, Repr

def BitBangCommand.instr (c : BitBangCommand) : Instr :=
  if c.read then .bbr c.tck c.tms c.tdi else .bb c.tck c.tms c.tdi

/-- How many pin operations the command makes (20_memory.md R67). -/
def BitBangCommand.pinOps (c : BitBangCommand) : Nat := if c.read then 4 else 3

/-- The mode-select levels of the releasing commands in a run of bit-bang commands: those whose clock bit is 0 where
the clock bit before them, at first the latched one, is 1 (41_pin_sequencer.md R150). -/
def releasesOf (latched : Level) (cmds : List BitBangCommand) : List Level :=
  ((latched :: cmds.map BitBangCommand.tck).zip cmds).filterMap fun x => if x.1 && !x.2.tck then some x.2.tms else none

/-- The state with `DR` replaced by `IR` in its name, for the five states of the column (40_tap_advance.md R128 (d)). -/
def irOf : TapCtl → TapCtl
  | .captureDR => .captureIR
  | .shiftDR => .shiftIR
  | .exit1DR => .exit1IR
  | .pauseDR => .pauseIR
  | .exit2DR => .exit2IR
  | .updateDR => .updateIR
  | c => c

end Sys2Proof.Machine
end

