-- ==== Sys2Proof/Certificates/Slice0/Obligations.lean ====
section
/-! DEFINITION. The statements for the provers. Each docstring names the rules of spec/ it rests on, and says where the
statement rests on a decision of the spec (D<n>) or a choice of the model (log n). -/

open Sys2Proof Sys2Proof.Machine

/-! ## Encoding -/

/-- 30_encoding.md R86, R93 (notation of the spec's own, D24), R95, R96: decoding an encoded well-formed instruction
under the selector it is read under gives the instruction back, for every legal machine and every operand. -/
def Obligations.DecodeOfEncodedInstr : Prop :=
  ∀ (p : Params) (sel : Selector) (i : Instr), p.legal = true → i.wellFormed = true → i.readUnder sel = true →
    decode p sel (encode p i) = i

/-- 30_encoding.md R83 to R88 (positions D3, ignored bits D4): encoding the instruction of a byte gives the byte back;
for a bit-bang command it gives the byte with the undesignated bits cleared. -/
def Obligations.EncodeOfDecodedByte : Prop :=
  ∀ (p : Params) (sel : Selector) (b : Byte),
    ∃ b', encode p (decode p sel (.byte b)) = .byte b' ∧
      (sel.remaining ≠ 0 ∨ b.getLsbD 7 = true → b' = b) ∧
      (sel.remaining = 0 → b.getLsbD 7 = false → ∀ i < 8, b'.getLsbD i =
        (b.getLsbD i && (i == 6 || i == p.tckBit.val || i == p.tmsBit.val || i == p.tdiBit.val)))

/-- 30_encoding.md R95, R96 (numbering D1, log 11): each pattern of the TAP table, each control request and the bus
reset is the code of exactly one well-formed instruction, the one it decodes to. -/
def Obligations.EncodeOfDecodedPatternOrRequest : Prop :=
  ∀ (p : Params) (sel : Selector) (i : Instr),
    (∀ w : BitVec 5, i.wellFormed = true ∧ encode p i = .pattern w ↔ i = decode p sel (.pattern w)) ∧
    (∀ r : ControlRequest, i.wellFormed = true ∧ encode p i = .request r ↔ i = decode p sel (.request r)) ∧
    (i.wellFormed = true ∧ encode p i = .busReset ↔ i = decode p sel .busReset)

/-- 30_encoding.md R86: the decode function, form by form, for every byte in every mode. -/
def Obligations.ByteFormBySelector : Prop :=
  ∀ (p : Params) (sel : Selector) (b : Byte),
    (sel.remaining = 0 → b.getLsbD 7 = false → b.getLsbD 6 = false →
      decode p sel (.byte b) = .bb (b.getLsbD p.tckBit) (b.getLsbD p.tmsBit) (b.getLsbD p.tdiBit)) ∧
    (sel.remaining = 0 → b.getLsbD 7 = false → b.getLsbD 6 = true →
      decode p sel (.byte b) = .bbr (b.getLsbD p.tckBit) (b.getLsbD p.tmsBit) (b.getLsbD p.tdiBit)) ∧
    (sel.remaining = 0 → b.getLsbD 7 = true → b.getLsbD 6 = false →
      decode p sel (.byte b) = .shift (b.extractLsb' 0 6)) ∧
    (sel.remaining = 0 → b.getLsbD 7 = true → b.getLsbD 6 = true →
      decode p sel (.byte b) = .shiftr (b.extractLsb' 0 6)) ∧
    (sel.remaining ≠ 0 → sel.read = false → decode p sel (.byte b) = .data b) ∧
    (sel.remaining ≠ 0 → sel.read = true → decode p sel (.byte b) = .datar b)

/-- Words written out from 30_encoding.md R83 to R86, R93, R95, R96 and 95_test_vectors.md V5 to V7, with the default
bit numbers (D3). -/
def Obligations.WrittenWordsDecode : Prop :=
  decodeTableWord 8 0x2F = some (.bb true true false) ∧
  decodeTableWord 8 0x52 = some (.bbr false true true) ∧
  decodeTableWord 8 0x85 = some (.shift 5) ∧
  decodeTableWord 8 0xC1 = some (.shiftr 1) ∧
  decode Params.nominal { remaining := 2, read := false } (.byte 0xC1) = .data 0xC1 ∧
  decode Params.nominal { remaining := 1, read := true } (.byte 0xA5) = .datar 0xA5 ∧
  decodeTableWord 5 0x12 = some .advanceSelectDR0 ∧
  decodeTableWord 5 0x05 = some .advanceSelectIR1 ∧
  decode Params.nominal Selector.command (.request (.reset 2)) = .reset2 ∧
  decode Params.nominal Selector.command (.request (.reset 3)) = .resetOther 3

/-! ## The TAP table -/

/-- 40_tap_advance.md R111, R115, R119: the entries of the three states whose two entries are both the source's, and
the self-loops of two of them. -/
def Obligations.SourceTapEntries : Prop :=
  advance .reset false = .runIdle ∧ advance .reset true = .reset ∧
  advance .shiftDR false = .shiftDR ∧ advance .shiftDR true = .exit1DR ∧
  advance .updateDR false = .runIdle ∧ advance .updateDR true = .selectDR ∧
  (∀ n, (fun c => advance c true)^[n] .reset = .reset) ∧
  ∀ n, (fun c => advance c false)^[n] .shiftDR = .shiftDR

/-- 40_tap_advance.md R110 to R119 (25 entries of the table are the spec's general knowledge, G1, log 10; that the
result of a lookup is reported is the model's choice, log 29): each row of `Reset`, `RunIdle` and the DR column answers
its successor and changes nothing else. -/
def Obligations.AdvanceRowsOfTheDrColumn : Prop :=
  ∀ s : State,
    exec .advanceReset0 s = .next (s.report (.lookup .runIdle)) ∧
    exec .advanceReset1 s = .next (s.report (.lookup .reset)) ∧
    exec .advanceRunIdle0 s = .next (s.report (.lookup .runIdle)) ∧
    exec .advanceRunIdle1 s = .next (s.report (.lookup .selectDR)) ∧
    exec .advanceSelectDR0 s = .next (s.report (.lookup .captureDR)) ∧
    exec .advanceSelectDR1 s = .next (s.report (.lookup .selectIR)) ∧
    exec .advanceCaptureDR0 s = .next (s.report (.lookup .shiftDR)) ∧
    exec .advanceCaptureDR1 s = .next (s.report (.lookup .exit1DR)) ∧
    exec .advanceShiftDR0 s = .next (s.report (.lookup .shiftDR)) ∧
    exec .advanceShiftDR1 s = .next (s.report (.lookup .exit1DR)) ∧
    exec .advanceExit1DR0 s = .next (s.report (.lookup .pauseDR)) ∧
    exec .advanceExit1DR1 s = .next (s.report (.lookup .updateDR)) ∧
    exec .advancePauseDR0 s = .next (s.report (.lookup .pauseDR)) ∧
    exec .advancePauseDR1 s = .next (s.report (.lookup .exit2DR)) ∧
    exec .advanceExit2DR0 s = .next (s.report (.lookup .shiftDR)) ∧
    exec .advanceExit2DR1 s = .next (s.report (.lookup .updateDR)) ∧
    exec .advanceUpdateDR0 s = .next (s.report (.lookup .runIdle)) ∧
    exec .advanceUpdateDR1 s = .next (s.report (.lookup .selectDR))

/-- 40_tap_advance.md R110, R120 to R126 (entries from general knowledge, G1, log 10; the report is the model's
choice, log 29): each row of the IR column answers its successor and changes nothing else. -/
def Obligations.AdvanceRowsOfTheIrColumn : Prop :=
  ∀ s : State,
    exec .advanceSelectIR0 s = .next (s.report (.lookup .captureIR)) ∧
    exec .advanceSelectIR1 s = .next (s.report (.lookup .reset)) ∧
    exec .advanceCaptureIR0 s = .next (s.report (.lookup .shiftIR)) ∧
    exec .advanceCaptureIR1 s = .next (s.report (.lookup .exit1IR)) ∧
    exec .advanceShiftIR0 s = .next (s.report (.lookup .shiftIR)) ∧
    exec .advanceShiftIR1 s = .next (s.report (.lookup .exit1IR)) ∧
    exec .advanceExit1IR0 s = .next (s.report (.lookup .pauseIR)) ∧
    exec .advanceExit1IR1 s = .next (s.report (.lookup .updateIR)) ∧
    exec .advancePauseIR0 s = .next (s.report (.lookup .pauseIR)) ∧
    exec .advancePauseIR1 s = .next (s.report (.lookup .exit2IR)) ∧
    exec .advanceExit2IR0 s = .next (s.report (.lookup .shiftIR)) ∧
    exec .advanceExit2IR1 s = .next (s.report (.lookup .updateIR)) ∧
    exec .advanceUpdateIR0 s = .next (s.report (.lookup .runIdle)) ∧
    exec .advanceUpdateIR1 s = .next (s.report (.lookup .selectDR))

/-- 40_tap_advance.md R110, 30_encoding.md R96, 41_pin_sequencer.md R145: there is one table. What a release writes to
`tap` is what the row of its state and mode bit gives. That a row runs as a lookup and reports its result is the model's
choice (log 29), the number of its pattern is decision D1 (log 11), and 25 of the entries are general knowledge (G1,
log 10). -/
def Obligations.LookupsAndReleasesShareOneTable : Prop :=
  ∀ (s : State) (c : TapCtl) (m : Level),
    exec (advanceInstr c m) s = .next (s.report (.lookup (advance c m))) ∧
    decode s.params s.selector (.pattern (patternOf c m)) = advanceInstr c m ∧
    (s.tap = .running c → s.clockLatched = true → (detectRelease m false s).tap = .running (advance c m))

/-- 40_tap_advance.md R128 (derived there from R111 to R126; G1, log 10): five clocks with mode bit 1 end in `Reset`
and stay there, and four do not from exactly six states; six self-loops; the entries into `Reset`; every state is
reachable; the two columns have one shape. -/
def Obligations.TapTableProperties : Prop :=
  (∀ (c : TapCtl) (n : Nat), 5 ≤ n → (fun c => advance c true)^[n] c = .reset) ∧
  (∀ c : TapCtl, (fun c => advance c true)^[4] c ≠ .reset ↔
    c ∈ [TapCtl.captureDR, .shiftDR, .pauseDR, .captureIR, .shiftIR, .pauseIR]) ∧
  (∀ (c : TapCtl) (m : Level), advance c m = c ↔
    (c, m) ∈ [(TapCtl.reset, true), (.runIdle, false), (.shiftDR, false), (.pauseDR, false), (.shiftIR, false),
      (.pauseIR, false)]) ∧
  (∀ (c : TapCtl) (m : Level), advance c m = .reset ↔ m = true ∧ (c = .reset ∨ c = .selectIR)) ∧
  (∀ c : TapCtl, ∃ ms : List Level, ms.foldl advance .reset = c) ∧
  (∀ c ∈ [TapCtl.captureDR, .shiftDR, .exit1DR, .pauseDR, .exit2DR], ∀ m, advance (irOf c) m = irOf (advance c m)) ∧
  (∀ m, advance .updateIR m = advance .updateDR m) ∧
  advance .selectDR true = .selectIR

/-! ## Bit-bang commands -/

/-- 41_pin_sequencer.md R145 with 42_command_bytes.md R160, R161: the release detector runs once per bit-bang command,
after the three drives (always three, D5, log 14) succeeded and, in a `BBR`, before the sense (D7, log 15), so that it
has run where the sense fails; it makes a transition exactly when the clock was latched and is now requested
low, with the mode-select level of this command, and latches the requested clock level. -/
def Obligations.ReleaseDetector : Prop :=
  ∀ (s : State) (c : TapCtl) (tck tms tdi : Level), s.tap = .running c →
    (s.allDone 3 = true → ∃ t, exec (.bb tck tms tdi) s = .next t ∧ t.clockLatched = tck ∧
      t.tap = .running (if s.clockLatched = true ∧ tck = false then advance c tms else c)) ∧
    (s.allDone 4 = true → ∃ t, exec (.bbr tck tms tdi) s = .next t ∧ t.clockLatched = tck ∧
      t.tap = .running (if s.clockLatched = true ∧ tck = false then advance c tms else c)) ∧
    (s.failsAt 3 = true → ∃ t, exec (.bbr tck tms tdi) s = .next t ∧ t.clockLatched = tck) ∧
    (∀ k < 3, s.failsAt k = true →
      (∃ t, exec (.bb tck tms tdi) s = .next t ∧ t.clockLatched = s.clockLatched) ∧
      ∃ t, exec (.bbr tck tms tdi) s = .next t ∧ t.clockLatched = s.clockLatched)

/-- 41_pin_sequencer.md R150 (derived there from R145): over a run of bit-bang commands, `BB` and `BBR` in any order,
whose pin operations all succeed (three or four a command, D5, log 14), `tap` makes exactly the transitions of the
releases in the run, in their order, and no other. -/
def Obligations.TransitionsAreTheReleases : Prop :=
  ∀ (cmds : List BitBangCommand) (s : State) (c : TapCtl), s.tap = .running c →
    s.allDone (cmds.map BitBangCommand.pinOps).sum = true →
    ∃ t, execAll (cmds.map BitBangCommand.instr) s = .next t ∧
      t.tap = .running ((releasesOf s.clockLatched cmds).foldl advance c)

/-- 42_command_bytes.md R160 with 41_pin_sequencer.md R143 (order of the drives D5, log 14), R145: `BB` whose three
drives succeed, as a whole state; what the record does not name is unchanged. -/
def Obligations.BitBangEffect : Prop :=
  ∀ (s : State) (tck tms tdi : Level), s.allDone 3 = true →
    exec (.bb tck tms tdi) s = .next { s.made (bitBangEvents tck tms tdi) with
      tap := if s.clockLatched = true ∧ tck = false then s.tap.advance tms else s.tap
      clockLatched := tck
      inbound := s.inbound.tail
      phase := s.phase.countByte }

/-- 42_command_bytes.md R161 (sense after the drives and the detector, D7, log 15), 30_encoding.md R91 (D8): `BBR`
whose four pin operations succeed, as a whole state. -/
def Obligations.BitBangReadEffect : Prop :=
  ∀ (s : State) (tck tms tdi : Level), s.allDone 4 = true →
    exec (.bbr tck tms tdi) s = .next { s.made (bitBangEvents tck tms tdi ++ [.read (s.tdoAt 3)]) with
      tap := if s.clockLatched = true ∧ tck = false then s.tap.advance tms else s.tap
      clockLatched := tck
      outbound := s.outbound ++ [bitBangResponse s.params (s.tdoAt 3)]
      responses := s.responses ++ [bitBangResponse s.params (s.tdoAt 3)]
      inbound := s.inbound.tail
      phase := s.phase.countByte }

/-- 30_encoding.md R91, 00_scope.md R7 (D8; marker open, U1): a bit-bang response has the sensed level at
`TDO_RESP_BIT`, the marker at another bit, and zeros elsewhere, on every machine. -/
def Obligations.BitBangResponseLayout : Prop :=
  ∀ (p : Params) (t : Level), p.markerBit < 8 ∧ p.markerBit ≠ p.tdoRespBit.val ∧
    (bitBangResponse p t).getLsbD p.tdoRespBit = t ∧ (bitBangResponse p t).getLsbD p.markerBit = true ∧
    ∀ i < 8, i ≠ p.tdoRespBit.val → i ≠ p.markerBit → (bitBangResponse p t).getLsbD i = false

/-! ## Bursts -/

/-- 42_command_bytes.md R162, R163, R165 (nothing else is touched, D10; no response of its own, D9; log 23), with every
count, 0 among them: the shift commands as whole states. -/
def Obligations.ShiftCommandEffect : Prop :=
  ∀ (s : State) (count : BitVec 6),
    exec (.shift count) s = .next { s with
      shiftRemaining := count, readEnabled := false, inbound := s.inbound.tail, phase := s.phase.countByte } ∧
    exec (.shiftr count) s = .next { s with
      shiftRemaining := count, readEnabled := true, inbound := s.inbound.tail, phase := s.phase.countByte }

/-- 43_data_bytes.md R180, R184, R185 (D13, D14, D15, D30; log 16, 17, 18): `DATA` whose 24 drives succeed, as a whole
state: `tap` and `read_enabled` are unchanged, the register ends at zero. -/
def Obligations.DataByteEffect : Prop :=
  ∀ (s : State) (d : Byte), s.allDone 24 = true →
    exec (.data d) s = .next { s.made (dataEvents d) with
      shiftRegister := 0
      clockLatched := false
      shiftRemaining := s.shiftRemaining - 1
      inbound := s.inbound.tail
      phase := s.phase.countByte }

/-- 43_data_bytes.md R181, R184, R185 (D12, D14, D15, D30; log 16, 17, 18): `DATAR` whose 32 pin operations succeed, as
a whole state: bit `i` of the response is the level sampled in pulse `i`. -/
def Obligations.DataByteReadEffect : Prop :=
  ∀ (s : State) (d : Byte), s.allDone 32 = true →
    exec (.datar d) s = .next { s.made (datarEvents d fun i => s.tdoAt (4 * i + 1)) with
      shiftRegister := samplesByte fun i => s.tdoAt (4 * i + 1)
      outbound := s.outbound ++ [samplesByte fun i => s.tdoAt (4 * i + 1)]
      responses := s.responses ++ [samplesByte fun i => s.tdoAt (4 * i + 1)]
      clockLatched := false
      shiftRemaining := s.shiftRemaining - 1
      inbound := s.inbound.tail
      phase := s.phase.countByte }

/-- 20_memory.md R58, at the places in the event stream that R67 and 41_pin_sequencer.md R146 give (order within a
pulse D12, no sense without READ D13, `TMS` not driven D30, log 16): bit `i` of a data byte is driven on `TDI` in
pulse `i`, the level sampled in pulse `i` is bit `i` of the response, and a target that echoes `TDI` to `TDO` returns
the byte unchanged. -/
def Obligations.BurstBitOrder : Prop :=
  ∀ (s : State) (d : Byte),
    (s.allDone 24 = true → ∃ t, exec (.data d) s = .next t ∧
      ∀ i < 8, t.trace[s.trace.length + 3 * i]? = some (.set .tdi (d.getLsbD i))) ∧
    (s.allDone 32 = true → ∃ t r, exec (.datar d) s = .next t ∧ t.responses = s.responses ++ [r] ∧
      (∀ i < 8, t.trace[s.trace.length + 4 * i]? = some (.set .tdi (d.getLsbD i))) ∧
      (∀ i < 8, t.trace[s.trace.length + 4 * i + 1]? = some (.read (r.getLsbD i))) ∧
      ((∀ i < 8, s.tdoAt (4 * i + 1) = d.getLsbD i) → r = d))

/-- 43_data_bytes.md R187 (derived there from R163 and R181; the source's property of section 8): the stream `0xC1, d`
with the input held gives exactly one response byte, 0xFF or 0x00, whatever `d` is. -/
def Obligations.HeldInputGivesOneResponse : Prop :=
  ∀ (s : State) (consumed : Nat) (after : Option WriteCall) (d : Byte) (rest : List Byte) (held : Level),
    s.phase = .batch consumed after → s.shiftRemaining = 0 → s.inbound = 0xC1 :: d :: rest → s.outFree ≠ 0 →
    s.allDone 32 = true → (∀ i < 8, s.tdoAt (4 * i + 1) = held) →
    ∃ t, Host.Core.run core 2 s = .next t ∧ t.responses = s.responses ++ [if held then 0xFF else 0x00] ∧
      t.shiftRemaining = 0 ∧ t.inbound = rest

/-! ## Failing pin operations -/

/-- 41_pin_sequencer.md R149: the first pin operation of a byte that fails is the last event of the byte; no later pin
operation or state write of the byte is made, no response is pushed, `tap` becomes `Fault`, and the failure is returned
to the caller of `process`; the events already made stay made. That the byte stays in `inbound` is D18 (44 R206, log
21), and that only a `BBR` has written `clock_latched` before its last operation is D7 (42 R161, log 15). -/
def Obligations.FirstFailureEndsTheByte : Prop :=
  ∀ (s : State) (k : Nat) (e : PinEvent) (i : Instr) (evs : List PinEvent), s.failsAt k = true → evs[k]? = some e →
    ((∃ tck tms tdi, i = .bb tck tms tdi ∧ evs = bitBangEvents tck tms tdi) ∨
      (∃ tck tms tdi l, i = .bbr tck tms tdi ∧ evs = bitBangEvents tck tms tdi ++ [.read l]) ∨
      (∃ d, i = .data d ∧ evs = dataEvents d) ∨
      ∃ d, i = .datar d ∧ evs = datarEvents d fun j => s.tdoAt (4 * j + 1)) →
    ∃ t, exec i s = .next t ∧ t.trace = s.trace ++ evs.take k ++ [e.failure] ∧ t.pinOps = s.pinOps + (k + 1) ∧
      t.outbound = s.outbound ∧ t.responses = s.responses ∧ t.inbound = s.inbound ∧
      t.shiftRemaining = s.shiftRemaining ∧ t.readEnabled = s.readEnabled ∧
      ((k = 3 ∧ ∃ tck tms tdi, i = .bbr tck tms tdi) ∨ t.clockLatched = s.clockLatched) ∧ t.tap = .fault ∧
      t.reports = s.reports ++ [.condition .pinFault] ∧ t.phase = .idle

/-- 60_exceptions.md R262 with 44_batch_processing.md R206 (what the other fields hold is the spec's decision D18, log
21; the pin whose drive failed is at either level, U5, log 4): the whole state after a failure at each position of each
byte form. -/
def Obligations.StateAfterPinFault : Prop :=
  ∀ (s : State) (k : Nat) (e : PinEvent), s.failsAt k = true →
    (∀ tck tms tdi, (bitBangEvents tck tms tdi)[k]? = some e →
      exec (.bb tck tms tdi) s = .next ((s.made ((bitBangEvents tck tms tdi).take k)).missed e).raisePinFault ∧
      exec (.bbr tck tms tdi) s = .next ((s.made ((bitBangEvents tck tms tdi).take k)).missed e).raisePinFault) ∧
    (∀ tck tms tdi, k = 3 → exec (.bbr tck tms tdi) s = .next
      ((State.missed { s.made (bitBangEvents tck tms tdi) with clockLatched := tck } (.read false)).raisePinFault)) ∧
    (∀ d, (dataEvents d)[k]? = some e → exec (.data d) s = .next
      (State.raisePinFault { (s.made ((dataEvents d).take k)).missed e with
        shiftRegister := registerAfter d (fun _ => false) (k / 3) })) ∧
    (∀ d, (datarEvents d fun i => s.tdoAt (4 * i + 1))[k]? = some e → exec (.datar d) s = .next
      (State.raisePinFault { (s.made ((datarEvents d fun i => s.tdoAt (4 * i + 1)).take k)).missed e with
        shiftRegister := registerAfter d (fun i => s.tdoAt (4 * i + 1)) (k / 4) }))

/-! ## Frames of the byte forms, whatever their pin operations do -/

/-- 42_command_bytes.md R160, R161, R164 (D11): what `BB` and `BBR` leave unchanged, failing or not: every register but
`tap` and `clock_latched`, the outbound FIFO but for the one response of `BBR`, and all that is the framer's or the
caller's. -/
def Obligations.BitBangFrame : Prop :=
  ∀ (s t : State) (tck tms tdi : Level), exec (.bb tck tms tdi) s = .next t ∨ exec (.bbr tck tms tdi) s = .next t →
    t.params = s.params ∧ t.shiftRemaining = s.shiftRemaining ∧ t.shiftRegister = s.shiftRegister ∧
    t.readEnabled = s.readEnabled ∧ t.framerState = s.framerState ∧ t.agenda = s.agenda ∧ t.wire = s.wire ∧
    (exec (.bb tck tms tdi) s = .next t → t.outbound = s.outbound ∧ t.responses = s.responses) ∧
    ((t.outbound = s.outbound ∧ t.responses = s.responses) ∨
      ∃ b, t.outbound = s.outbound ++ [b] ∧ t.responses = s.responses ++ [b]) ∧
    (t.tap ≠ .fault → t.inbound = s.inbound.tail ∧ t.resetOwed = s.resetOwed ∧ t.reports = s.reports) ∧
    (t.tap = .fault → s.tap ≠ .fault → t.inbound = s.inbound ∧ t.outbound = s.outbound)

/-- 43_data_bytes.md R180, R181, R184, R186 (D14, D30): what `DATA` and `DATAR` leave unchanged, failing or not: `tap`
unless a pin operation fails, `read_enabled`, the level of `TMS`, the outbound FIFO but for the one response of
`DATAR`, and all that is the framer's or the caller's. -/
def Obligations.DataByteFrame : Prop :=
  ∀ (s t : State) (d : Byte), exec (.data d) s = .next t ∨ exec (.datar d) s = .next t →
    t.params = s.params ∧ t.readEnabled = s.readEnabled ∧ t.pins.tms = s.pins.tms ∧
    t.framerState = s.framerState ∧ t.agenda = s.agenda ∧ t.wire = s.wire ∧
    (exec (.data d) s = .next t → t.outbound = s.outbound ∧ t.responses = s.responses) ∧
    ((t.outbound = s.outbound ∧ t.responses = s.responses) ∨
      ∃ b, t.outbound = s.outbound ++ [b] ∧ t.responses = s.responses ++ [b]) ∧
    (t.tap ≠ .fault → t.tap = s.tap ∧ t.inbound = s.inbound.tail ∧ t.resetOwed = s.resetOwed ∧
      t.reports = s.reports) ∧
    (t.tap = .fault → s.tap ≠ .fault → t.inbound = s.inbound ∧ t.outbound = s.outbound ∧
      t.shiftRemaining = s.shiftRemaining ∧ t.clockLatched = s.clockLatched)

/-! ## What a step keeps -/

/-- 10_state.md R29, R30, 20_memory.md R53, 44_batch_processing.md R201 (D19), 70_reset_and_hazards.md R300 (d): every
step from a sound state ends in a sound state: the parameters stay legal, the FIFOs within their capacities, no batch
runs while a fault is outstanding, and a faulted block is owed a reset. -/
def Obligations.StepKeepsInv : Prop :=
  ∀ s t : State, s.Inv → step s = .next t → t.Inv

/-- The state after reset is sound. -/
def Obligations.ResetInv : Prop := State.reset.Inv

/-- 30_encoding.md R89, 60_exceptions.md R277: no state stops the machine; every step has a next state. -/
def Obligations.EveryStepGoesOn : Prop := ∀ s : State, ∃ t, step s = .next t

/-- 10_state.md R33, R41 (the records are the model's, log 33): no step writes the parameters, and every record only
grows at its end; no reset clears one. -/
def Obligations.RecordsOnlyGrow : Prop :=
  ∀ s t : State, step s = .next t →
    t.params = s.params ∧ s.trace <+: t.trace ∧ s.responses <+: t.responses ∧ s.reports <+: t.reports ∧
      s.wire <+: t.wire

/-- 10_state.md R31, R30, 20_memory.md R52, R65: who writes the inbound FIFO. The framer's inbound read appends bytes
the transport offers, within the capacity; the block removes the oldest byte; a full reset and `RESET(1)` empty it;
nothing else changes it, and the block never adds to its own stream. -/
def Obligations.InboundWriters : Prop :=
  ∀ s t : State, s.Inv → step s = .next t → t.inLen ≤ t.params.inCap ∧
    (s.resetsNext ∨ (s.phase = .idle ∧ s.agenda.head? = some (.control (.reset 1))) → t.inbound = []) ∧
    (t.inbound = s.inbound ∨
      (s.inBatch ∧ ∃ b, s.inbound = b :: t.inbound) ∨
      (s.phase = .idle ∧ ∃ offered bs, (s.agenda.head? = some (.read offered) ∨
          ∃ w, s.agenda.head? = some (.poll offered w)) ∧ bs <+: offered ∧ t.inbound = s.inbound ++ bs) ∨
      (t.inbound = [] ∧ (s.resetsNext ∨ (s.phase = .idle ∧ s.agenda.head? = some (.control (.reset 1))))))

/-- 10_state.md R32, 20_memory.md R53: who writes the outbound FIFO. A byte of a batch appends at most one byte, never
past the capacity, and it is the response recorded; the framer's write takes the oldest bytes, those it has sent; a
full reset and `RESET(2)` empty it; nothing else changes it. -/
def Obligations.OutboundWriters : Prop :=
  ∀ s t : State, s.Inv → step s = .next t → t.outLen ≤ t.params.outCap ∧
    (s.resetsNext ∨ (s.phase = .idle ∧ s.agenda.head? = some (.control (.reset 2))) → t.outbound = []) ∧
    (t.outbound = s.outbound ∨
      (s.inBatch ∧ ∃ b, t.outbound = s.outbound ++ [b] ∧ t.responses = s.responses ++ [b]) ∨
      (s.phase = .idle ∧ ∃ w k, s.agenda.head? = some (.write w) ∧
        s.outbound = s.outbound.take k ++ t.outbound ∧
        t.wire = s.wire ++ [s.params.modemStatus0 :: s.params.modemStatus1 :: s.outbound.take k]) ∨
      (t.outbound = [] ∧ (s.resetsNext ∨ (s.phase = .idle ∧ s.agenda.head? = some (.control (.reset 2))))))

/-- 10_state.md R23, R20, R29 (I2), (I3) (that data bytes do not move it is D14): who writes `tap`. A bit-bang command
that releases the latched clock moves it along the table; a failed pin operation of a byte makes it `Fault`; a full
reset makes it `Reset`; nothing else changes it. -/
def Obligations.TapWriters : Prop :=
  ∀ s t : State, s.Inv → step s = .next t → t.tap ≠ s.tap →
    (∃ c tms tdi, s.tap = .running c ∧ s.inBatch ∧ s.clockLatched = true ∧
      (s.nextByte = some (.bb false tms tdi) ∨ s.nextByte = some (.bbr false tms tdi)) ∧
      t.tap = .running (advance c tms)) ∨
    (s.inBatch ∧ t.tap = .fault ∧ ∃ evs e, t.trace = s.trace ++ evs ++ [e] ∧ e.isFailure = true) ∨
    (s.resetsNext ∧ t.tap = .running .reset)

/-- 10_state.md R24, 43_data_bytes.md R182 (a), R183: who writes `shift_remaining`. A shift command, taken while it is
0, loads it; a data byte, taken while it is above 0, decrements it; a full reset clears it; nothing else changes it.
-/
def Obligations.ShiftRemainingWriters : Prop :=
  ∀ s t : State, step s = .next t → t.shiftRemaining ≠ s.shiftRemaining →
    (s.inBatch ∧ s.shiftRemaining = 0 ∧
      (s.nextByte = some (.shift t.shiftRemaining) ∨ s.nextByte = some (.shiftr t.shiftRemaining))) ∨
    (s.inBatch ∧ (∃ d, s.nextByte = some (.data d) ∨ s.nextByte = some (.datar d)) ∧
      s.shiftRemaining.toNat = t.shiftRemaining.toNat + 1) ∨
    (s.resetsNext ∧ t.shiftRemaining = 0)

/-- 10_state.md R26, R27, R34 (D11, D15): who writes the two mode flags. `read_enabled` is the READ bit of a shift
command; `clock_latched` is the clock level of a bit-bang command, and false after a data byte; a full reset clears
both; nothing else changes either. -/
def Obligations.ModeFlagWriters : Prop :=
  ∀ s t : State, step s = .next t →
    (t.readEnabled = s.readEnabled ∨
      (s.inBatch ∧ ∃ count, (s.nextByte = some (.shift count) ∧ t.readEnabled = false) ∨
        (s.nextByte = some (.shiftr count) ∧ t.readEnabled = true)) ∨
      (s.resetsNext ∧ t.readEnabled = false)) ∧
    (t.clockLatched = s.clockLatched ∨
      (s.inBatch ∧ ∃ tck tms tdi, (s.nextByte = some (.bb tck tms tdi) ∨ s.nextByte = some (.bbr tck tms tdi)) ∧
        t.clockLatched = tck) ∨
      (s.inBatch ∧ (∃ d, s.nextByte = some (.data d) ∨ s.nextByte = some (.datar d)) ∧ t.clockLatched = false) ∨
      (s.resetsNext ∧ t.clockLatched = false))

/-- 45_control_and_framer.md R233: the framer's transitions. Any state, on a full reset, to `JustReset`; any state, on a
write of which the transport accepted two bytes or more, to `Idle`; no others. -/
def Obligations.FramerTransitions : Prop :=
  ∀ s t : State, step s = .next t →
    (s.resetsNext → t.framerState = .justReset) ∧
    (∀ w rest, s.phase = .idle → s.resetOwed = false → s.agenda = .write w :: rest →
      s.mustSend w.heartbeat = true → 2 ≤ s.accepted w → t.framerState = .idle) ∧
    (t.framerState ≠ s.framerState → s.resetsNext ∨
      ∃ w rest, s.phase = .idle ∧ s.resetOwed = false ∧ s.agenda = .write w :: rest ∧
        s.mustSend w.heartbeat = true ∧ 2 ≤ s.accepted w)

/-- 10_state.md R37 (derived there), 93_implementation_defined.md U5: an output holds the level of its last `Set` event.
A step appends events to the trace and the pins follow them; after a failed drive, the last event of its byte, the pin
is at the old level or the requested one; only power-up moves the pins without an event (log 37). -/
def Obligations.PinsFollowTheTrace : Prop :=
  ∀ s t : State, step s = .next t →
    (s.phase = .idle ∧ t.trace = s.trace ∧ ∃ levels rest, s.agenda = .bringUp levels :: rest ∧ t.pins = levels) ∨
    ∃ evs, evs.all (fun e => !e.isFailure) = true ∧
      ((t.pinOps = s.pinOps + evs.length ∧ t.trace = s.trace ++ evs ∧ t.pins = evs.foldl Pins.after s.pins) ∨
        ∃ e, e.isFailure = false ∧ t.pinOps = s.pinOps + evs.length + 1 ∧ t.trace = s.trace ++ evs ++ [e.failure] ∧
          (t.pins = evs.foldl Pins.after s.pins ∨ t.pins = (evs ++ [e]).foldl Pins.after s.pins))

/-! ## The batch loop -/

/-- 44_batch_processing.md R200, R207, 45_control_and_framer.md R227 (D26): a step runs the decoded instruction.
Inside a batch with a byte to take and room for a response, the step is the meaning of the instruction that the oldest
byte is read as; between batches, a control request, a bus reset or a lookup at the head of the agenda is run with the
agenda moved on, unless a reset is owed (`CallerForcesOwedReset`). That the caller runs lookups is the model's choice
(log 29). -/
def Obligations.StepRunsDecodedInstr : Prop :=
  ∀ s : State,
    (∀ consumed after b rest, s.phase = .batch consumed after → s.inbound = b :: rest → s.outFree ≠ 0 →
      step s = exec (decode s.params s.selector (.byte b)) s) ∧
    (∀ r rest, s.phase = .idle → s.resetOwed = false → s.agenda = .control r :: rest →
      step s = exec (decode s.params s.selector (.request r)) { s with agenda := rest }) ∧
    (∀ rest, s.phase = .idle → s.resetOwed = false → s.agenda = .busReset :: rest →
      step s = exec .busReset { s with agenda := rest }) ∧
    (∀ w rest, s.phase = .idle → s.resetOwed = false → s.agenda = .lookup w :: rest →
      step s = exec (decode s.params s.selector (.pattern w)) { s with agenda := rest })

/-- 44_batch_processing.md R202 (D20, log 22), R203, R204: a batch with no byte to take, or no room for a response, ends
with `Done(consumed)` and changes nothing else, whatever the byte at the head would have been; in a poll cycle the
write comes next (45 R234, D21). -/
def Obligations.BatchStopsWithoutByteOrRoom : Prop :=
  ∀ (s : State) (consumed : Nat), s.inbound = [] ∨ s.outFree = 0 →
    (s.phase = .batch consumed none →
      step s = .next { s with phase := .idle, reports := s.reports ++ [.done consumed] }) ∧
    (∀ w, s.phase = .batch consumed (some w) → step s = .next { s with
      phase := .idle, agenda := .write w :: s.agenda, reports := s.reports ++ [.done consumed] })

/-- 44_batch_processing.md R201 (D19, log 13), 60_exceptions.md R271: a faulted block refuses work by itself, also for a
caller that does not force the reset it owes (in a sound state it does so first, `CallerForcesOwedReset`). A call of
`process` returns `PinFault` at once and does nothing else; and no step between batches that is not a full reset changes
a register, the stream of pin events, the pins or the responses. -/
def Obligations.FaultedBlockRefusesWork : Prop :=
  ∀ s : State, s.tap = .fault →
    (∀ after, beginBatch after s = { s with
      phase := .idle, resetOwed := true, reports := s.reports ++ [.condition .pinFault] }) ∧
    (∀ rest, s.phase = .idle → s.resetOwed = false → s.agenda = .process :: rest → step s = .next { s with
      agenda := rest, resetOwed := true, reports := s.reports ++ [.condition .pinFault] }) ∧
    (∀ t, s.phase = .idle → ¬ s.resetsNext → step s = .next t →
      t.tap = .fault ∧ t.shiftRemaining = s.shiftRemaining ∧ t.shiftRegister = s.shiftRegister ∧
      t.readEnabled = s.readEnabled ∧ t.clockLatched = s.clockLatched ∧ t.trace = s.trace ∧ t.pins = s.pins ∧
      t.responses = s.responses ∧ t.pinOps = s.pinOps)

/-- 44_batch_processing.md R204, R206, R209 (the result shape D28): a batch always ends, within one step more than there
are bytes and 32 pin operations a byte; it removes exactly the oldest bytes it handled and pushes at most one response
for each; it returns `Done` with their number, having stopped for want of a byte or of room, or `PinFault` with a byte
left in the FIFO. -/
def Obligations.BatchEndsAndAccounts : Prop :=
  ∀ (s : State) (consumed : Nat) (after : Option WriteCall), s.tap ≠ .fault → s.phase = .batch consumed after →
    ∃ k t n rs, k ≤ s.inLen + 1 ∧ Host.Core.run core k s = .next t ∧ t.phase = .idle ∧
      n ≤ s.inLen ∧ t.inbound = s.inbound.drop n ∧ t.pinOps ≤ s.pinOps + 32 * s.inLen ∧
      t.responses = s.responses ++ rs ∧ t.outbound = s.outbound ++ rs ∧ rs.length ≤ n ∧
      ((t.reports = s.reports ++ [.done (consumed + n)] ∧ t.tap ≠ .fault ∧ (t.inbound = [] ∨ t.outFree = 0)) ∨
        (t.reports = s.reports ++ [.condition .pinFault] ∧ t.tap = .fault ∧ n < s.inLen))

/-- 44_batch_processing.md R205 (derived there), 20_memory.md R60: nothing about a batch boundary is remembered.
Ending a batch and beginning another leaves the block the same, and two states with the same block, each inside a
batch, make the same events, responses and block with every byte, whatever their batches, their callers and their
records are. -/
def Obligations.BatchBoundariesLeaveNoTrace : Prop :=
  (∀ (s : State) (consumed : Nat) (after : Option WriteCall),
    SameBlock s (endBatch consumed after s) ∧ (s.tap ≠ .fault → SameBlock s (beginBatch after s))) ∧
  ∀ s t s' : State, SameBlock s t → s.inBatch → t.inBatch → step s = .next s' →
    ∃ t' evs rs, step t = .next t' ∧ SameBlock s' t' ∧ (s'.inBatch ↔ t'.inBatch) ∧
      s'.trace = s.trace ++ evs ∧ t'.trace = t.trace ++ evs ∧
      s'.responses = s.responses ++ rs ∧ t'.responses = t.responses ++ rs

/-- 70_reset_and_hazards.md R317 (derived there), 10_state.md R41 (a): `tap` is a belief. Two states that differ only in
where the TAP controller is believed to be, and in the latch that feeds this belief, make the same pin events,
responses, consumption and reports with every step, and differ in nothing else afterwards. -/
def Obligations.TapIsABelief : Prop :=
  ∀ s t s' : State, SameButTap s t → step s = .next s' → ∃ t', step t = .next t' ∧ SameButTap s' t'

/-- 70_reset_and_hazards.md R307, 40_tap_advance.md R128 (c), 30_encoding.md R93 (`TAPRESET`, D24), along entries of
the table that are general knowledge (G1, log 10): five clocks with mode-select high bring `tap` to `Reset` from every
one of the sixteen states, on every legal machine, in ten bytes and thirty pin operations, with no response. -/
def Obligations.TapResetFromEveryState : Prop :=
  ∀ (s : State) (consumed : Nat) (after : Option WriteCall) (c : TapCtl) (rest : List Byte),
    s.params.legal = true → s.phase = .batch consumed after → s.tap = .running c → s.clockLatched = false →
    s.shiftRemaining = 0 → s.outFree ≠ 0 → s.allDone 30 = true →
    s.inbound = (List.replicate 5 [bitBangByte s.params false true true false,
      bitBangByte s.params false false true false]).flatten ++ rest →
    ∃ t, Host.Core.run core 10 s = .next t ∧ t.tap = .running .reset ∧ t.clockLatched = false ∧ t.inbound = rest ∧
      t.outbound = s.outbound ∧ t.pinOps = s.pinOps + 30 ∧ t.phase = .batch (consumed + 10) after

/-! ## Reset and the control channel -/

/-- 45_control_and_framer.md R220 with 70_reset_and_hazards.md R301 (three of the values are D16, log 19; no pin is
driven, D17, log 20): `RESET(0)` as a whole state. -/
def Obligations.FullResetRequest : Prop :=
  ∀ s : State, exec .reset0 s = .next { s with
    tap := .running .reset, shiftRemaining := 0, shiftRegister := 0, readEnabled := false, clockLatched := false
    inbound := [], outbound := [], framerState := .justReset, resetOwed := false
    reports := s.reports ++ [.accepted] }

/-- 45_control_and_framer.md R221, R222: the two purges empty one FIFO each, are accepted, and change nothing else. -/
def Obligations.Purges : Prop :=
  ∀ s : State,
    exec .reset1 s = .next { s with inbound := [], reports := s.reports ++ [.accepted] } ∧
    exec .reset2 s = .next { s with outbound := [], reports := s.reports ++ [.accepted] }

/-- 45_control_and_framer.md R223 (any natural number, D27): `RESET` with a value other than 0, 1, 2 is accepted and
is no operation, from the request to the state. -/
def Obligations.OtherResetValuesDoNothing : Prop :=
  ∀ (s : State) (v : Nat), (3 ≤ v → decode s.params s.selector (.request (.reset v)) = .resetOther v) ∧
    exec (.resetOther v) s = .next { s with reports := s.reports ++ [.accepted] }

/-- 45_control_and_framer.md R224: EEPROM write and erase are rejected whatever their sub-code and payload, and change
nothing. -/
def Obligations.EepromIsReadOnly : Prop :=
  ∀ (s : State) (subCode : Nat) (payload : List Byte),
    exec (.eepromWrite subCode payload) s = .next { s with reports := s.reports ++ [.rejected] } ∧
    exec (.eepromErase subCode payload) s = .next { s with reports := s.reports ++ [.rejected] }

/-- 45_control_and_framer.md R225: the three queries answer a canned value of the data provider (open, U13, log 9), the
same in every state, and change nothing. -/
def Obligations.QueriesAnswerCannedValues : Prop :=
  (∀ subCode, ∃ v, ∀ s : State, exec (.eepromRead subCode) s = .next { s with reports := s.reports ++ [.canned v] }) ∧
  (∃ v, ∀ s : State, exec .modemStatusQuery s = .next { s with reports := s.reports ++ [.canned v] }) ∧
  ∃ v, ∀ s : State, exec .latencyTimerQuery s = .next { s with reports := s.reports ++ [.canned v] }

/-- 45_control_and_framer.md R226, 60_exceptions.md R264 (93_implementation_defined.md U14 calls it a stall instead;
that the numbered rules are followed is log 31, DEDUCED): any other vendor request is the condition
`UnrecognizedVendorRequest`, which is no error; it is accepted with an empty response and changes nothing. -/
def Obligations.OtherVendorRequestsAccepted : Prop :=
  ∀ (s : State) (request : Nat) (payload : List Byte),
    exec (.vendorOther request payload) s = .next { s with
      reports := s.reports ++ [.condition .unrecognizedVendorRequest, .acceptedEmpty] }

/-- 45_control_and_framer.md R228, 70_reset_and_hazards.md R301, R302: a bus reset, the reset the caller forces and
bring-up have one effect on the block, that of `RESET(0)`; a bus reset answers nothing, and bring-up alone finds the
pins at new levels (log 37). Values D16, log 19. -/
def Obligations.EveryResetIsTheFullReset : Prop :=
  ∀ s : State,
    exec .busReset s = .next { s with
      tap := .running .reset, shiftRemaining := 0, shiftRegister := 0, readEnabled := false, clockLatched := false
      inbound := [], outbound := [], framerState := .justReset, resetOwed := false } ∧
    (∀ rest, s.phase = .idle → s.resetOwed = false → s.agenda = .forcedReset :: rest →
      step s = exec .busReset { s with agenda := rest }) ∧
    (∀ levels rest t, s.phase = .idle → s.resetOwed = false → s.agenda = .bringUp levels :: rest →
      exec .busReset { s with agenda := rest } = .next t → step s = .next { t with pins := levels }) ∧
    (∀ t, exec .reset0 s = .next t → exec .busReset s = .next { t with reports := s.reports })

/-- 70_reset_and_hazards.md R304: issuing the reset twice leaves the state it leaves once, the whole state but for the
second acceptance. -/
def Obligations.ResetIsIdempotent : Prop :=
  ∀ s t u : State, exec .reset0 s = .next t → exec .reset0 t = .next u →
    u = { t with reports := t.reports ++ [.accepted] }

/-- 10_state.md R39 (`shift_register`, `read_enabled`, `clock_latched` are D16, log 19; nominal parameters, log 6; an
empty agenda and no answers listed are the model's, log 1 and 3): what bring-up leaves, and that a full reset of any
state leaves the block and the framer so. -/
def Obligations.ResetValues : Prop :=
  (State.reset.tap = .running .reset ∧ State.reset.shiftRemaining = 0 ∧ State.reset.shiftRegister = 0 ∧
    State.reset.readEnabled = false ∧ State.reset.clockLatched = false ∧ State.reset.inbound = [] ∧
    State.reset.outbound = [] ∧ State.reset.framerState = .justReset ∧ State.reset.phase = .idle) ∧
  ∀ s t : State, exec .busReset s = .next t →
    t.tap = State.reset.tap ∧ t.shiftRemaining = State.reset.shiftRemaining ∧
    t.shiftRegister = State.reset.shiftRegister ∧ t.readEnabled = State.reset.readEnabled ∧
    t.clockLatched = State.reset.clockLatched ∧ t.inbound = State.reset.inbound ∧
    t.outbound = State.reset.outbound ∧ t.framerState = State.reset.framerState

/-- 41_pin_sequencer.md R148, 70_reset_and_hazards.md R303 (D17, log 20), 45_control_and_framer.md R220 to R228,
60_exceptions.md R272, and 40_tap_advance.md R110 for the lookups (run by the caller, log 29): the control channel and
the TAP lookups drive no pin, sense none and push no response; they leave the parameters, the running batch, the
agenda and the wire alone. -/
def Obligations.ControlChannelFrame : Prop :=
  ∀ (s t : State) (i : Instr), isByte i = false → exec i s = .next t →
    t.pins = s.pins ∧ t.trace = s.trace ∧ t.pinAnswers = s.pinAnswers ∧ t.pinOps = s.pinOps ∧
    t.responses = s.responses ∧ t.wire = s.wire ∧ t.params = s.params ∧ t.phase = s.phase ∧ t.agenda = s.agenda ∧
    (i ≠ .reset0 → i ≠ .busReset → t.tap = s.tap ∧ t.shiftRemaining = s.shiftRemaining ∧
      t.shiftRegister = s.shiftRegister ∧ t.readEnabled = s.readEnabled ∧ t.clockLatched = s.clockLatched ∧
      t.framerState = s.framerState ∧ t.resetOwed = s.resetOwed) ∧
    (i ≠ .reset0 → i ≠ .busReset → i ≠ .reset1 → t.inbound = s.inbound) ∧
    (i ≠ .reset0 → i ≠ .busReset → i ≠ .reset2 → t.outbound = s.outbound)

/-! ## The framer and the caller -/

/-- 45_control_and_framer.md R231: a write sends if and only if the outbound FIFO is not empty, or heartbeat is
asserted, or it is a write since the last reset none was accepted before; without one of these there is no transfer;
with one, and a transport that accepts two bytes or more, the host gets at least the two status bytes. -/
def Obligations.WriteSendsWhenItMust : Prop :=
  ∀ (s : State) (w : WriteCall) (rest : List Call), s.phase = .idle → s.resetOwed = false →
    s.agenda = .write w :: rest →
    (s.outbound = [] → w.heartbeat = false → s.framerState = .idle →
      step s = .next { s with agenda := rest, reports := s.reports ++ [.skipped] }) ∧
    (s.outbound ≠ [] ∨ w.heartbeat = true ∨ s.framerState = .justReset → 2 ≤ w.accepts →
      ∃ t payload, step s = .next t ∧ payload <+: s.outbound ∧
        t.wire = s.wire ++ [s.params.modemStatus0 :: s.params.modemStatus1 :: payload])

/-- 45_control_and_framer.md R232, 60_exceptions.md R261, R263 (0 accepted is transient, exactly 1 is fatal: D22, C2,
C7, log 26): the three outcomes of a write that sends, as whole states. -/
def Obligations.WriteOutcomes : Prop :=
  ∀ (s : State) (w : WriteCall) (rest : List Call), s.phase = .idle → s.resetOwed = false →
    s.agenda = .write w :: rest →
    s.outbound ≠ [] ∨ w.heartbeat = true ∨ s.framerState = .justReset →
    (w.accepts = 0 → step s = .next { s with
      agenda := rest, reports := s.reports ++ [.condition .transientWouldBlock] }) ∧
    (w.accepts = 1 → step s = .next { s with
      agenda := rest, wire := s.wire ++ [[s.params.modemStatus0]], resetOwed := true
      reports := s.reports ++ [.condition .framingFault] }) ∧
    (∀ k, min w.accepts (s.outbound.length + 2) = k + 2 → step s = .next { s with
      agenda := rest
      wire := s.wire ++ [s.params.modemStatus0 :: s.params.modemStatus1 :: s.outbound.take k]
      outbound := s.outbound.drop k
      framerState := .idle
      reports := s.reports ++ [.sent (k + 2)] })

/-- 45_control_and_framer.md R230, 60_exceptions.md R261 (a packet longer than the free space: D23, log 27): the
outcomes of an inbound read, as whole states. -/
def Obligations.ReadOutcomes : Prop :=
  ∀ (s : State) (offered : List Byte) (rest : List Call), s.phase = .idle → s.resetOwed = false →
    s.agenda = .read offered :: rest →
    (s.params.inCap ≤ s.inLen ∨ offered = [] → step s = .next { s with
      agenda := rest, reports := s.reports ++ [.condition .transientWouldBlock] }) ∧
    (s.inLen < s.params.inCap → offered ≠ [] → step s = .next { s with
      agenda := rest
      inbound := s.inbound ++ offered.take (s.params.inCap - s.inLen)
      reports := s.reports ++ [.took (min (s.params.inCap - s.inLen) offered.length)] })

/-- 44_batch_processing.md R200, 45_control_and_framer.md R234 (order D21, log 28), 60_exceptions.md R269: with no
fault outstanding a call of `process` begins a batch with nothing consumed, and so does a caller with nothing listed
(log 2); a poll cycle reads and begins a batch whose write comes after it; a `PinFault` in the batch drops that write.
-/
def Obligations.PollCycle : Prop :=
  ∀ (s : State) (offered : List Byte) (w : WriteCall) (rest : List Call),
    (s.phase = .idle → s.agenda = .process :: rest → s.faultFree →
      step s = .next { s with agenda := rest, phase := .batch 0 none }) ∧
    (s.phase = .idle → s.agenda = [] → s.faultFree → step s = .next { s with phase := .batch 0 none }) ∧
    (s.phase = .idle → s.agenda = .poll offered w :: rest → s.faultFree →
      step s = .next { framerRead offered { s with agenda := rest } with phase := .batch 0 (some w) }) ∧
    (∀ consumed t, s.phase = .batch consumed (some w) → s.tap ≠ .fault → step s = .next t → t.tap = .fault →
      t.phase = .idle ∧ t.agenda = s.agenda ∧ t.resetOwed = true)

/-- 70_reset_and_hazards.md R300 (d), 60_exceptions.md R266 (that the duty is a bit of the caller's: log 34): after a
`PinFault` or a `FramingFault` the caller forces the full reset before anything else, whatever it has to do next, and
this clears the fault. -/
def Obligations.CallerForcesOwedReset : Prop :=
  ∀ s : State, s.phase = .idle → s.resetOwed = true →
    ∃ t, step s = .next t ∧ exec .busReset s = .next t ∧ t.faultFree ∧ t.agenda = s.agenda
end

