-- ==== Sys2Proof/Laws/State.lean ====
section
/-! SUPPORT. One lemma for each field and each update of the state, true by definition: no later proof unfolds a
record update. -/

namespace Sys2Proof.Machine

@[simp] theorem State.popByte_params (s : State) : s.popByte.params = s.params := rfl
@[simp] theorem State.popByte_tap (s : State) : s.popByte.tap = s.tap := rfl
@[simp] theorem State.popByte_shiftRemaining (s : State) : s.popByte.shiftRemaining = s.shiftRemaining := rfl
@[simp] theorem State.popByte_shiftRegister (s : State) : s.popByte.shiftRegister = s.shiftRegister := rfl
@[simp] theorem State.popByte_readEnabled (s : State) : s.popByte.readEnabled = s.readEnabled := rfl
@[simp] theorem State.popByte_clockLatched (s : State) : s.popByte.clockLatched = s.clockLatched := rfl
@[simp] theorem State.popByte_inbound (s : State) : s.popByte.inbound = s.inbound.tail := rfl
@[simp] theorem State.popByte_outbound (s : State) : s.popByte.outbound = s.outbound := rfl
@[simp] theorem State.popByte_framerState (s : State) : s.popByte.framerState = s.framerState := rfl
@[simp] theorem State.popByte_pins (s : State) : s.popByte.pins = s.pins := rfl
@[simp] theorem State.popByte_phase (s : State) : s.popByte.phase = s.phase.countByte := rfl
@[simp] theorem State.popByte_agenda (s : State) : s.popByte.agenda = s.agenda := rfl
@[simp] theorem State.popByte_resetOwed (s : State) : s.popByte.resetOwed = s.resetOwed := rfl
@[simp] theorem State.popByte_pinAnswers (s : State) : s.popByte.pinAnswers = s.pinAnswers := rfl
@[simp] theorem State.popByte_pinOps (s : State) : s.popByte.pinOps = s.pinOps := rfl
@[simp] theorem State.popByte_trace (s : State) : s.popByte.trace = s.trace := rfl
@[simp] theorem State.popByte_responses (s : State) : s.popByte.responses = s.responses := rfl
@[simp] theorem State.popByte_reports (s : State) : s.popByte.reports = s.reports := rfl
@[simp] theorem State.popByte_wire (s : State) : s.popByte.wire = s.wire := rfl

@[simp] theorem State.pushResponse_params (s : State) (b : Byte) : (s.pushResponse b).params = s.params := rfl
@[simp] theorem State.pushResponse_tap (s : State) (b : Byte) : (s.pushResponse b).tap = s.tap := rfl
@[simp] theorem State.pushResponse_shiftRemaining (s : State) (b : Byte) : (s.pushResponse b).shiftRemaining = s.shiftRemaining := rfl
@[simp] theorem State.pushResponse_shiftRegister (s : State) (b : Byte) : (s.pushResponse b).shiftRegister = s.shiftRegister := rfl
@[simp] theorem State.pushResponse_readEnabled (s : State) (b : Byte) : (s.pushResponse b).readEnabled = s.readEnabled := rfl
@[simp] theorem State.pushResponse_clockLatched (s : State) (b : Byte) : (s.pushResponse b).clockLatched = s.clockLatched := rfl
@[simp] theorem State.pushResponse_inbound (s : State) (b : Byte) : (s.pushResponse b).inbound = s.inbound := rfl
@[simp] theorem State.pushResponse_outbound (s : State) (b : Byte) : (s.pushResponse b).outbound = s.outbound ++ [b] := rfl
@[simp] theorem State.pushResponse_framerState (s : State) (b : Byte) : (s.pushResponse b).framerState = s.framerState := rfl
@[simp] theorem State.pushResponse_pins (s : State) (b : Byte) : (s.pushResponse b).pins = s.pins := rfl
@[simp] theorem State.pushResponse_phase (s : State) (b : Byte) : (s.pushResponse b).phase = s.phase := rfl
@[simp] theorem State.pushResponse_agenda (s : State) (b : Byte) : (s.pushResponse b).agenda = s.agenda := rfl
@[simp] theorem State.pushResponse_resetOwed (s : State) (b : Byte) : (s.pushResponse b).resetOwed = s.resetOwed := rfl
@[simp] theorem State.pushResponse_pinAnswers (s : State) (b : Byte) : (s.pushResponse b).pinAnswers = s.pinAnswers := rfl
@[simp] theorem State.pushResponse_pinOps (s : State) (b : Byte) : (s.pushResponse b).pinOps = s.pinOps := rfl
@[simp] theorem State.pushResponse_trace (s : State) (b : Byte) : (s.pushResponse b).trace = s.trace := rfl
@[simp] theorem State.pushResponse_responses (s : State) (b : Byte) : (s.pushResponse b).responses = s.responses ++ [b] := rfl
@[simp] theorem State.pushResponse_reports (s : State) (b : Byte) : (s.pushResponse b).reports = s.reports := rfl
@[simp] theorem State.pushResponse_wire (s : State) (b : Byte) : (s.pushResponse b).wire = s.wire := rfl

@[simp] theorem State.report_params (s : State) (r : Report) : (s.report r).params = s.params := rfl
@[simp] theorem State.report_tap (s : State) (r : Report) : (s.report r).tap = s.tap := rfl
@[simp] theorem State.report_shiftRemaining (s : State) (r : Report) : (s.report r).shiftRemaining = s.shiftRemaining := rfl
@[simp] theorem State.report_shiftRegister (s : State) (r : Report) : (s.report r).shiftRegister = s.shiftRegister := rfl
@[simp] theorem State.report_readEnabled (s : State) (r : Report) : (s.report r).readEnabled = s.readEnabled := rfl
@[simp] theorem State.report_clockLatched (s : State) (r : Report) : (s.report r).clockLatched = s.clockLatched := rfl
@[simp] theorem State.report_inbound (s : State) (r : Report) : (s.report r).inbound = s.inbound := rfl
@[simp] theorem State.report_outbound (s : State) (r : Report) : (s.report r).outbound = s.outbound := rfl
@[simp] theorem State.report_framerState (s : State) (r : Report) : (s.report r).framerState = s.framerState := rfl
@[simp] theorem State.report_pins (s : State) (r : Report) : (s.report r).pins = s.pins := rfl
@[simp] theorem State.report_phase (s : State) (r : Report) : (s.report r).phase = s.phase := rfl
@[simp] theorem State.report_agenda (s : State) (r : Report) : (s.report r).agenda = s.agenda := rfl
@[simp] theorem State.report_resetOwed (s : State) (r : Report) : (s.report r).resetOwed = s.resetOwed := rfl
@[simp] theorem State.report_pinAnswers (s : State) (r : Report) : (s.report r).pinAnswers = s.pinAnswers := rfl
@[simp] theorem State.report_pinOps (s : State) (r : Report) : (s.report r).pinOps = s.pinOps := rfl
@[simp] theorem State.report_trace (s : State) (r : Report) : (s.report r).trace = s.trace := rfl
@[simp] theorem State.report_responses (s : State) (r : Report) : (s.report r).responses = s.responses := rfl
@[simp] theorem State.report_reports (s : State) (r : Report) : (s.report r).reports = s.reports ++ [r] := rfl
@[simp] theorem State.report_wire (s : State) (r : Report) : (s.report r).wire = s.wire := rfl

@[simp] theorem State.operate_params (s : State) (e : PinEvent) : (s.operate e).params = s.params := rfl
@[simp] theorem State.operate_tap (s : State) (e : PinEvent) : (s.operate e).tap = s.tap := rfl
@[simp] theorem State.operate_shiftRemaining (s : State) (e : PinEvent) : (s.operate e).shiftRemaining = s.shiftRemaining := rfl
@[simp] theorem State.operate_shiftRegister (s : State) (e : PinEvent) : (s.operate e).shiftRegister = s.shiftRegister := rfl
@[simp] theorem State.operate_readEnabled (s : State) (e : PinEvent) : (s.operate e).readEnabled = s.readEnabled := rfl
@[simp] theorem State.operate_clockLatched (s : State) (e : PinEvent) : (s.operate e).clockLatched = s.clockLatched := rfl
@[simp] theorem State.operate_inbound (s : State) (e : PinEvent) : (s.operate e).inbound = s.inbound := rfl
@[simp] theorem State.operate_outbound (s : State) (e : PinEvent) : (s.operate e).outbound = s.outbound := rfl
@[simp] theorem State.operate_framerState (s : State) (e : PinEvent) : (s.operate e).framerState = s.framerState := rfl
@[simp] theorem State.operate_pins (s : State) (e : PinEvent) : (s.operate e).pins = s.pins := rfl
@[simp] theorem State.operate_phase (s : State) (e : PinEvent) : (s.operate e).phase = s.phase := rfl
@[simp] theorem State.operate_agenda (s : State) (e : PinEvent) : (s.operate e).agenda = s.agenda := rfl
@[simp] theorem State.operate_resetOwed (s : State) (e : PinEvent) : (s.operate e).resetOwed = s.resetOwed := rfl
@[simp] theorem State.operate_pinAnswers (s : State) (e : PinEvent) : (s.operate e).pinAnswers = s.pinAnswers.tail := rfl
@[simp] theorem State.operate_pinOps (s : State) (e : PinEvent) : (s.operate e).pinOps = s.pinOps + 1 := rfl
@[simp] theorem State.operate_trace (s : State) (e : PinEvent) : (s.operate e).trace = s.trace ++ [e] := rfl
@[simp] theorem State.operate_responses (s : State) (e : PinEvent) : (s.operate e).responses = s.responses := rfl
@[simp] theorem State.operate_reports (s : State) (e : PinEvent) : (s.operate e).reports = s.reports := rfl
@[simp] theorem State.operate_wire (s : State) (e : PinEvent) : (s.operate e).wire = s.wire := rfl

@[simp] theorem State.drive_params (s : State) (p : Pin) (l : Level) : (s.drive p l).params = s.params := rfl
@[simp] theorem State.drive_tap (s : State) (p : Pin) (l : Level) : (s.drive p l).tap = s.tap := rfl
@[simp] theorem State.drive_shiftRemaining (s : State) (p : Pin) (l : Level) : (s.drive p l).shiftRemaining = s.shiftRemaining := rfl
@[simp] theorem State.drive_shiftRegister (s : State) (p : Pin) (l : Level) : (s.drive p l).shiftRegister = s.shiftRegister := rfl
@[simp] theorem State.drive_readEnabled (s : State) (p : Pin) (l : Level) : (s.drive p l).readEnabled = s.readEnabled := rfl
@[simp] theorem State.drive_clockLatched (s : State) (p : Pin) (l : Level) : (s.drive p l).clockLatched = s.clockLatched := rfl
@[simp] theorem State.drive_inbound (s : State) (p : Pin) (l : Level) : (s.drive p l).inbound = s.inbound := rfl
@[simp] theorem State.drive_outbound (s : State) (p : Pin) (l : Level) : (s.drive p l).outbound = s.outbound := rfl
@[simp] theorem State.drive_framerState (s : State) (p : Pin) (l : Level) : (s.drive p l).framerState = s.framerState := rfl
@[simp] theorem State.drive_pins (s : State) (p : Pin) (l : Level) : (s.drive p l).pins = s.pins.drive p l := rfl
@[simp] theorem State.drive_phase (s : State) (p : Pin) (l : Level) : (s.drive p l).phase = s.phase := rfl
@[simp] theorem State.drive_agenda (s : State) (p : Pin) (l : Level) : (s.drive p l).agenda = s.agenda := rfl
@[simp] theorem State.drive_resetOwed (s : State) (p : Pin) (l : Level) : (s.drive p l).resetOwed = s.resetOwed := rfl
@[simp] theorem State.drive_pinAnswers (s : State) (p : Pin) (l : Level) : (s.drive p l).pinAnswers = s.pinAnswers := rfl
@[simp] theorem State.drive_pinOps (s : State) (p : Pin) (l : Level) : (s.drive p l).pinOps = s.pinOps := rfl
@[simp] theorem State.drive_trace (s : State) (p : Pin) (l : Level) : (s.drive p l).trace = s.trace := rfl
@[simp] theorem State.drive_responses (s : State) (p : Pin) (l : Level) : (s.drive p l).responses = s.responses := rfl
@[simp] theorem State.drive_reports (s : State) (p : Pin) (l : Level) : (s.drive p l).reports = s.reports := rfl
@[simp] theorem State.drive_wire (s : State) (p : Pin) (l : Level) : (s.drive p l).wire = s.wire := rfl

@[simp] theorem detectRelease_params (tms tck : Level) (s : State) : (detectRelease tms tck s).params = s.params := rfl
@[simp] theorem detectRelease_tap (tms tck : Level) (s : State) : (detectRelease tms tck s).tap = if s.releases tck then s.tap.advance tms else s.tap := rfl
@[simp] theorem detectRelease_shiftRemaining (tms tck : Level) (s : State) : (detectRelease tms tck s).shiftRemaining = s.shiftRemaining := rfl
@[simp] theorem detectRelease_shiftRegister (tms tck : Level) (s : State) : (detectRelease tms tck s).shiftRegister = s.shiftRegister := rfl
@[simp] theorem detectRelease_readEnabled (tms tck : Level) (s : State) : (detectRelease tms tck s).readEnabled = s.readEnabled := rfl
@[simp] theorem detectRelease_clockLatched (tms tck : Level) (s : State) : (detectRelease tms tck s).clockLatched = tck := rfl
@[simp] theorem detectRelease_inbound (tms tck : Level) (s : State) : (detectRelease tms tck s).inbound = s.inbound := rfl
@[simp] theorem detectRelease_outbound (tms tck : Level) (s : State) : (detectRelease tms tck s).outbound = s.outbound := rfl
@[simp] theorem detectRelease_framerState (tms tck : Level) (s : State) : (detectRelease tms tck s).framerState = s.framerState := rfl
@[simp] theorem detectRelease_pins (tms tck : Level) (s : State) : (detectRelease tms tck s).pins = s.pins := rfl
@[simp] theorem detectRelease_phase (tms tck : Level) (s : State) : (detectRelease tms tck s).phase = s.phase := rfl
@[simp] theorem detectRelease_agenda (tms tck : Level) (s : State) : (detectRelease tms tck s).agenda = s.agenda := rfl
@[simp] theorem detectRelease_resetOwed (tms tck : Level) (s : State) : (detectRelease tms tck s).resetOwed = s.resetOwed := rfl
@[simp] theorem detectRelease_pinAnswers (tms tck : Level) (s : State) : (detectRelease tms tck s).pinAnswers = s.pinAnswers := rfl
@[simp] theorem detectRelease_pinOps (tms tck : Level) (s : State) : (detectRelease tms tck s).pinOps = s.pinOps := rfl
@[simp] theorem detectRelease_trace (tms tck : Level) (s : State) : (detectRelease tms tck s).trace = s.trace := rfl
@[simp] theorem detectRelease_responses (tms tck : Level) (s : State) : (detectRelease tms tck s).responses = s.responses := rfl
@[simp] theorem detectRelease_reports (tms tck : Level) (s : State) : (detectRelease tms tck s).reports = s.reports := rfl
@[simp] theorem detectRelease_wire (tms tck : Level) (s : State) : (detectRelease tms tck s).wire = s.wire := rfl

@[simp] theorem openBurst_params (count : BitVec 6) (read : Bool) (s : State) : (openBurst count read s).params = s.params := rfl
@[simp] theorem openBurst_tap (count : BitVec 6) (read : Bool) (s : State) : (openBurst count read s).tap = s.tap := rfl
@[simp] theorem openBurst_shiftRemaining (count : BitVec 6) (read : Bool) (s : State) : (openBurst count read s).shiftRemaining = count := rfl
@[simp] theorem openBurst_shiftRegister (count : BitVec 6) (read : Bool) (s : State) : (openBurst count read s).shiftRegister = s.shiftRegister := rfl
@[simp] theorem openBurst_readEnabled (count : BitVec 6) (read : Bool) (s : State) : (openBurst count read s).readEnabled = read := rfl
@[simp] theorem openBurst_clockLatched (count : BitVec 6) (read : Bool) (s : State) : (openBurst count read s).clockLatched = s.clockLatched := rfl
@[simp] theorem openBurst_inbound (count : BitVec 6) (read : Bool) (s : State) : (openBurst count read s).inbound = s.inbound := rfl
@[simp] theorem openBurst_outbound (count : BitVec 6) (read : Bool) (s : State) : (openBurst count read s).outbound = s.outbound := rfl
@[simp] theorem openBurst_framerState (count : BitVec 6) (read : Bool) (s : State) : (openBurst count read s).framerState = s.framerState := rfl
@[simp] theorem openBurst_pins (count : BitVec 6) (read : Bool) (s : State) : (openBurst count read s).pins = s.pins := rfl
@[simp] theorem openBurst_phase (count : BitVec 6) (read : Bool) (s : State) : (openBurst count read s).phase = s.phase := rfl
@[simp] theorem openBurst_agenda (count : BitVec 6) (read : Bool) (s : State) : (openBurst count read s).agenda = s.agenda := rfl
@[simp] theorem openBurst_resetOwed (count : BitVec 6) (read : Bool) (s : State) : (openBurst count read s).resetOwed = s.resetOwed := rfl
@[simp] theorem openBurst_pinAnswers (count : BitVec 6) (read : Bool) (s : State) : (openBurst count read s).pinAnswers = s.pinAnswers := rfl
@[simp] theorem openBurst_pinOps (count : BitVec 6) (read : Bool) (s : State) : (openBurst count read s).pinOps = s.pinOps := rfl
@[simp] theorem openBurst_trace (count : BitVec 6) (read : Bool) (s : State) : (openBurst count read s).trace = s.trace := rfl
@[simp] theorem openBurst_responses (count : BitVec 6) (read : Bool) (s : State) : (openBurst count read s).responses = s.responses := rfl
@[simp] theorem openBurst_reports (count : BitVec 6) (read : Bool) (s : State) : (openBurst count read s).reports = s.reports := rfl
@[simp] theorem openBurst_wire (count : BitVec 6) (read : Bool) (s : State) : (openBurst count read s).wire = s.wire := rfl

@[simp] theorem closeDataByte_params (s : State) : (closeDataByte s).params = s.params := rfl
@[simp] theorem closeDataByte_tap (s : State) : (closeDataByte s).tap = s.tap := rfl
@[simp] theorem closeDataByte_shiftRemaining (s : State) : (closeDataByte s).shiftRemaining = countDown s.shiftRemaining := rfl
@[simp] theorem closeDataByte_shiftRegister (s : State) : (closeDataByte s).shiftRegister = s.shiftRegister := rfl
@[simp] theorem closeDataByte_readEnabled (s : State) : (closeDataByte s).readEnabled = s.readEnabled := rfl
@[simp] theorem closeDataByte_clockLatched (s : State) : (closeDataByte s).clockLatched = false := rfl
@[simp] theorem closeDataByte_inbound (s : State) : (closeDataByte s).inbound = s.inbound := rfl
@[simp] theorem closeDataByte_outbound (s : State) : (closeDataByte s).outbound = s.outbound := rfl
@[simp] theorem closeDataByte_framerState (s : State) : (closeDataByte s).framerState = s.framerState := rfl
@[simp] theorem closeDataByte_pins (s : State) : (closeDataByte s).pins = s.pins := rfl
@[simp] theorem closeDataByte_phase (s : State) : (closeDataByte s).phase = s.phase := rfl
@[simp] theorem closeDataByte_agenda (s : State) : (closeDataByte s).agenda = s.agenda := rfl
@[simp] theorem closeDataByte_resetOwed (s : State) : (closeDataByte s).resetOwed = s.resetOwed := rfl
@[simp] theorem closeDataByte_pinAnswers (s : State) : (closeDataByte s).pinAnswers = s.pinAnswers := rfl
@[simp] theorem closeDataByte_pinOps (s : State) : (closeDataByte s).pinOps = s.pinOps := rfl
@[simp] theorem closeDataByte_trace (s : State) : (closeDataByte s).trace = s.trace := rfl
@[simp] theorem closeDataByte_responses (s : State) : (closeDataByte s).responses = s.responses := rfl
@[simp] theorem closeDataByte_reports (s : State) : (closeDataByte s).reports = s.reports := rfl
@[simp] theorem closeDataByte_wire (s : State) : (closeDataByte s).wire = s.wire := rfl

@[simp] theorem State.returnPinFault_params (s : State) : s.returnPinFault.params = s.params := rfl
@[simp] theorem State.returnPinFault_tap (s : State) : s.returnPinFault.tap = s.tap := rfl
@[simp] theorem State.returnPinFault_shiftRemaining (s : State) : s.returnPinFault.shiftRemaining = s.shiftRemaining := rfl
@[simp] theorem State.returnPinFault_shiftRegister (s : State) : s.returnPinFault.shiftRegister = s.shiftRegister := rfl
@[simp] theorem State.returnPinFault_readEnabled (s : State) : s.returnPinFault.readEnabled = s.readEnabled := rfl
@[simp] theorem State.returnPinFault_clockLatched (s : State) : s.returnPinFault.clockLatched = s.clockLatched := rfl
@[simp] theorem State.returnPinFault_inbound (s : State) : s.returnPinFault.inbound = s.inbound := rfl
@[simp] theorem State.returnPinFault_outbound (s : State) : s.returnPinFault.outbound = s.outbound := rfl
@[simp] theorem State.returnPinFault_framerState (s : State) : s.returnPinFault.framerState = s.framerState := rfl
@[simp] theorem State.returnPinFault_pins (s : State) : s.returnPinFault.pins = s.pins := rfl
@[simp] theorem State.returnPinFault_phase (s : State) : s.returnPinFault.phase = .idle := rfl
@[simp] theorem State.returnPinFault_agenda (s : State) : s.returnPinFault.agenda = s.agenda := rfl
@[simp] theorem State.returnPinFault_resetOwed (s : State) : s.returnPinFault.resetOwed = true := rfl
@[simp] theorem State.returnPinFault_pinAnswers (s : State) : s.returnPinFault.pinAnswers = s.pinAnswers := rfl
@[simp] theorem State.returnPinFault_pinOps (s : State) : s.returnPinFault.pinOps = s.pinOps := rfl
@[simp] theorem State.returnPinFault_trace (s : State) : s.returnPinFault.trace = s.trace := rfl
@[simp] theorem State.returnPinFault_responses (s : State) : s.returnPinFault.responses = s.responses := rfl
@[simp] theorem State.returnPinFault_reports (s : State) : s.returnPinFault.reports = s.reports ++ [.condition .pinFault] := rfl
@[simp] theorem State.returnPinFault_wire (s : State) : s.returnPinFault.wire = s.wire := rfl

@[simp] theorem State.raisePinFault_params (s : State) : s.raisePinFault.params = s.params := rfl
@[simp] theorem State.raisePinFault_tap (s : State) : s.raisePinFault.tap = .fault := rfl
@[simp] theorem State.raisePinFault_shiftRemaining (s : State) : s.raisePinFault.shiftRemaining = s.shiftRemaining := rfl
@[simp] theorem State.raisePinFault_shiftRegister (s : State) : s.raisePinFault.shiftRegister = s.shiftRegister := rfl
@[simp] theorem State.raisePinFault_readEnabled (s : State) : s.raisePinFault.readEnabled = s.readEnabled := rfl
@[simp] theorem State.raisePinFault_clockLatched (s : State) : s.raisePinFault.clockLatched = s.clockLatched := rfl
@[simp] theorem State.raisePinFault_inbound (s : State) : s.raisePinFault.inbound = s.inbound := rfl
@[simp] theorem State.raisePinFault_outbound (s : State) : s.raisePinFault.outbound = s.outbound := rfl
@[simp] theorem State.raisePinFault_framerState (s : State) : s.raisePinFault.framerState = s.framerState := rfl
@[simp] theorem State.raisePinFault_pins (s : State) : s.raisePinFault.pins = s.pins := rfl
@[simp] theorem State.raisePinFault_phase (s : State) : s.raisePinFault.phase = .idle := rfl
@[simp] theorem State.raisePinFault_agenda (s : State) : s.raisePinFault.agenda = s.agenda := rfl
@[simp] theorem State.raisePinFault_resetOwed (s : State) : s.raisePinFault.resetOwed = true := rfl
@[simp] theorem State.raisePinFault_pinAnswers (s : State) : s.raisePinFault.pinAnswers = s.pinAnswers := rfl
@[simp] theorem State.raisePinFault_pinOps (s : State) : s.raisePinFault.pinOps = s.pinOps := rfl
@[simp] theorem State.raisePinFault_trace (s : State) : s.raisePinFault.trace = s.trace := rfl
@[simp] theorem State.raisePinFault_responses (s : State) : s.raisePinFault.responses = s.responses := rfl
@[simp] theorem State.raisePinFault_reports (s : State) : s.raisePinFault.reports = s.reports ++ [.condition .pinFault] := rfl
@[simp] theorem State.raisePinFault_wire (s : State) : s.raisePinFault.wire = s.wire := rfl

@[simp] theorem State.raiseFramingFault_params (s : State) : s.raiseFramingFault.params = s.params := rfl
@[simp] theorem State.raiseFramingFault_tap (s : State) : s.raiseFramingFault.tap = s.tap := rfl
@[simp] theorem State.raiseFramingFault_shiftRemaining (s : State) : s.raiseFramingFault.shiftRemaining = s.shiftRemaining := rfl
@[simp] theorem State.raiseFramingFault_shiftRegister (s : State) : s.raiseFramingFault.shiftRegister = s.shiftRegister := rfl
@[simp] theorem State.raiseFramingFault_readEnabled (s : State) : s.raiseFramingFault.readEnabled = s.readEnabled := rfl
@[simp] theorem State.raiseFramingFault_clockLatched (s : State) : s.raiseFramingFault.clockLatched = s.clockLatched := rfl
@[simp] theorem State.raiseFramingFault_inbound (s : State) : s.raiseFramingFault.inbound = s.inbound := rfl
@[simp] theorem State.raiseFramingFault_outbound (s : State) : s.raiseFramingFault.outbound = s.outbound := rfl
@[simp] theorem State.raiseFramingFault_framerState (s : State) : s.raiseFramingFault.framerState = s.framerState := rfl
@[simp] theorem State.raiseFramingFault_pins (s : State) : s.raiseFramingFault.pins = s.pins := rfl
@[simp] theorem State.raiseFramingFault_phase (s : State) : s.raiseFramingFault.phase = s.phase := rfl
@[simp] theorem State.raiseFramingFault_agenda (s : State) : s.raiseFramingFault.agenda = s.agenda := rfl
@[simp] theorem State.raiseFramingFault_resetOwed (s : State) : s.raiseFramingFault.resetOwed = true := rfl
@[simp] theorem State.raiseFramingFault_pinAnswers (s : State) : s.raiseFramingFault.pinAnswers = s.pinAnswers := rfl
@[simp] theorem State.raiseFramingFault_pinOps (s : State) : s.raiseFramingFault.pinOps = s.pinOps := rfl
@[simp] theorem State.raiseFramingFault_trace (s : State) : s.raiseFramingFault.trace = s.trace := rfl
@[simp] theorem State.raiseFramingFault_responses (s : State) : s.raiseFramingFault.responses = s.responses := rfl
@[simp] theorem State.raiseFramingFault_reports (s : State) : s.raiseFramingFault.reports = s.reports ++ [.condition .framingFault] := rfl
@[simp] theorem State.raiseFramingFault_wire (s : State) : s.raiseFramingFault.wire = s.wire := rfl

@[simp] theorem State.transfer_params (s : State) (count : Nat) : (s.transfer count).params = s.params := rfl
@[simp] theorem State.transfer_tap (s : State) (count : Nat) : (s.transfer count).tap = s.tap := rfl
@[simp] theorem State.transfer_shiftRemaining (s : State) (count : Nat) : (s.transfer count).shiftRemaining = s.shiftRemaining := rfl
@[simp] theorem State.transfer_shiftRegister (s : State) (count : Nat) : (s.transfer count).shiftRegister = s.shiftRegister := rfl
@[simp] theorem State.transfer_readEnabled (s : State) (count : Nat) : (s.transfer count).readEnabled = s.readEnabled := rfl
@[simp] theorem State.transfer_clockLatched (s : State) (count : Nat) : (s.transfer count).clockLatched = s.clockLatched := rfl
@[simp] theorem State.transfer_inbound (s : State) (count : Nat) : (s.transfer count).inbound = s.inbound := rfl
@[simp] theorem State.transfer_outbound (s : State) (count : Nat) : (s.transfer count).outbound = s.outbound := rfl
@[simp] theorem State.transfer_framerState (s : State) (count : Nat) : (s.transfer count).framerState = s.framerState := rfl
@[simp] theorem State.transfer_pins (s : State) (count : Nat) : (s.transfer count).pins = s.pins := rfl
@[simp] theorem State.transfer_phase (s : State) (count : Nat) : (s.transfer count).phase = s.phase := rfl
@[simp] theorem State.transfer_agenda (s : State) (count : Nat) : (s.transfer count).agenda = s.agenda := rfl
@[simp] theorem State.transfer_resetOwed (s : State) (count : Nat) : (s.transfer count).resetOwed = s.resetOwed := rfl
@[simp] theorem State.transfer_pinAnswers (s : State) (count : Nat) : (s.transfer count).pinAnswers = s.pinAnswers := rfl
@[simp] theorem State.transfer_pinOps (s : State) (count : Nat) : (s.transfer count).pinOps = s.pinOps := rfl
@[simp] theorem State.transfer_trace (s : State) (count : Nat) : (s.transfer count).trace = s.trace := rfl
@[simp] theorem State.transfer_responses (s : State) (count : Nat) : (s.transfer count).responses = s.responses := rfl
@[simp] theorem State.transfer_reports (s : State) (count : Nat) : (s.transfer count).reports = s.reports := rfl
@[simp] theorem State.transfer_wire (s : State) (count : Nat) : (s.transfer count).wire = s.wire ++ [s.frame.take count] := rfl

@[simp] theorem State.fullReset_params (s : State) : s.fullReset.params = s.params := rfl
@[simp] theorem State.fullReset_tap (s : State) : s.fullReset.tap = .running .reset := rfl
@[simp] theorem State.fullReset_shiftRemaining (s : State) : s.fullReset.shiftRemaining = 0 := rfl
@[simp] theorem State.fullReset_shiftRegister (s : State) : s.fullReset.shiftRegister = 0 := rfl
@[simp] theorem State.fullReset_readEnabled (s : State) : s.fullReset.readEnabled = false := rfl
@[simp] theorem State.fullReset_clockLatched (s : State) : s.fullReset.clockLatched = false := rfl
@[simp] theorem State.fullReset_inbound (s : State) : s.fullReset.inbound = [] := rfl
@[simp] theorem State.fullReset_outbound (s : State) : s.fullReset.outbound = [] := rfl
@[simp] theorem State.fullReset_framerState (s : State) : s.fullReset.framerState = .justReset := rfl
@[simp] theorem State.fullReset_pins (s : State) : s.fullReset.pins = s.pins := rfl
@[simp] theorem State.fullReset_phase (s : State) : s.fullReset.phase = s.phase := rfl
@[simp] theorem State.fullReset_agenda (s : State) : s.fullReset.agenda = s.agenda := rfl
@[simp] theorem State.fullReset_resetOwed (s : State) : s.fullReset.resetOwed = false := rfl
@[simp] theorem State.fullReset_pinAnswers (s : State) : s.fullReset.pinAnswers = s.pinAnswers := rfl
@[simp] theorem State.fullReset_pinOps (s : State) : s.fullReset.pinOps = s.pinOps := rfl
@[simp] theorem State.fullReset_trace (s : State) : s.fullReset.trace = s.trace := rfl
@[simp] theorem State.fullReset_responses (s : State) : s.fullReset.responses = s.responses := rfl
@[simp] theorem State.fullReset_reports (s : State) : s.fullReset.reports = s.reports := rfl
@[simp] theorem State.fullReset_wire (s : State) : s.fullReset.wire = s.wire := rfl

@[simp] theorem State.bringUp_params (s : State) (levels : Pins) : (s.bringUp levels).params = s.params := rfl
@[simp] theorem State.bringUp_tap (s : State) (levels : Pins) : (s.bringUp levels).tap = .running .reset := rfl
@[simp] theorem State.bringUp_shiftRemaining (s : State) (levels : Pins) : (s.bringUp levels).shiftRemaining = 0 := rfl
@[simp] theorem State.bringUp_shiftRegister (s : State) (levels : Pins) : (s.bringUp levels).shiftRegister = 0 := rfl
@[simp] theorem State.bringUp_readEnabled (s : State) (levels : Pins) : (s.bringUp levels).readEnabled = false := rfl
@[simp] theorem State.bringUp_clockLatched (s : State) (levels : Pins) : (s.bringUp levels).clockLatched = false := rfl
@[simp] theorem State.bringUp_inbound (s : State) (levels : Pins) : (s.bringUp levels).inbound = [] := rfl
@[simp] theorem State.bringUp_outbound (s : State) (levels : Pins) : (s.bringUp levels).outbound = [] := rfl
@[simp] theorem State.bringUp_framerState (s : State) (levels : Pins) : (s.bringUp levels).framerState = .justReset := rfl
@[simp] theorem State.bringUp_pins (s : State) (levels : Pins) : (s.bringUp levels).pins = levels := rfl
@[simp] theorem State.bringUp_phase (s : State) (levels : Pins) : (s.bringUp levels).phase = s.phase := rfl
@[simp] theorem State.bringUp_agenda (s : State) (levels : Pins) : (s.bringUp levels).agenda = s.agenda := rfl
@[simp] theorem State.bringUp_resetOwed (s : State) (levels : Pins) : (s.bringUp levels).resetOwed = false := rfl
@[simp] theorem State.bringUp_pinAnswers (s : State) (levels : Pins) : (s.bringUp levels).pinAnswers = s.pinAnswers := rfl
@[simp] theorem State.bringUp_pinOps (s : State) (levels : Pins) : (s.bringUp levels).pinOps = s.pinOps := rfl
@[simp] theorem State.bringUp_trace (s : State) (levels : Pins) : (s.bringUp levels).trace = s.trace := rfl
@[simp] theorem State.bringUp_responses (s : State) (levels : Pins) : (s.bringUp levels).responses = s.responses := rfl
@[simp] theorem State.bringUp_reports (s : State) (levels : Pins) : (s.bringUp levels).reports = s.reports := rfl
@[simp] theorem State.bringUp_wire (s : State) (levels : Pins) : (s.bringUp levels).wire = s.wire := rfl

@[simp] theorem State.made_params (s : State) (evs : List PinEvent) : (s.made evs).params = s.params := rfl
@[simp] theorem State.made_tap (s : State) (evs : List PinEvent) : (s.made evs).tap = s.tap := rfl
@[simp] theorem State.made_shiftRemaining (s : State) (evs : List PinEvent) : (s.made evs).shiftRemaining = s.shiftRemaining := rfl
@[simp] theorem State.made_shiftRegister (s : State) (evs : List PinEvent) : (s.made evs).shiftRegister = s.shiftRegister := rfl
@[simp] theorem State.made_readEnabled (s : State) (evs : List PinEvent) : (s.made evs).readEnabled = s.readEnabled := rfl
@[simp] theorem State.made_clockLatched (s : State) (evs : List PinEvent) : (s.made evs).clockLatched = s.clockLatched := rfl
@[simp] theorem State.made_inbound (s : State) (evs : List PinEvent) : (s.made evs).inbound = s.inbound := rfl
@[simp] theorem State.made_outbound (s : State) (evs : List PinEvent) : (s.made evs).outbound = s.outbound := rfl
@[simp] theorem State.made_framerState (s : State) (evs : List PinEvent) : (s.made evs).framerState = s.framerState := rfl
@[simp] theorem State.made_pins (s : State) (evs : List PinEvent) : (s.made evs).pins = evs.foldl Pins.after s.pins := rfl
@[simp] theorem State.made_phase (s : State) (evs : List PinEvent) : (s.made evs).phase = s.phase := rfl
@[simp] theorem State.made_agenda (s : State) (evs : List PinEvent) : (s.made evs).agenda = s.agenda := rfl
@[simp] theorem State.made_resetOwed (s : State) (evs : List PinEvent) : (s.made evs).resetOwed = s.resetOwed := rfl
@[simp] theorem State.made_pinAnswers (s : State) (evs : List PinEvent) : (s.made evs).pinAnswers = s.pinAnswers.drop evs.length := rfl
@[simp] theorem State.made_pinOps (s : State) (evs : List PinEvent) : (s.made evs).pinOps = s.pinOps + evs.length := rfl
@[simp] theorem State.made_trace (s : State) (evs : List PinEvent) : (s.made evs).trace = s.trace ++ evs := rfl
@[simp] theorem State.made_responses (s : State) (evs : List PinEvent) : (s.made evs).responses = s.responses := rfl
@[simp] theorem State.made_reports (s : State) (evs : List PinEvent) : (s.made evs).reports = s.reports := rfl
@[simp] theorem State.made_wire (s : State) (evs : List PinEvent) : (s.made evs).wire = s.wire := rfl

@[simp] theorem State.missed_params (s : State) (e : PinEvent) : (s.missed e).params = s.params := rfl
@[simp] theorem State.missed_tap (s : State) (e : PinEvent) : (s.missed e).tap = s.tap := rfl
@[simp] theorem State.missed_shiftRemaining (s : State) (e : PinEvent) : (s.missed e).shiftRemaining = s.shiftRemaining := rfl
@[simp] theorem State.missed_shiftRegister (s : State) (e : PinEvent) : (s.missed e).shiftRegister = s.shiftRegister := rfl
@[simp] theorem State.missed_readEnabled (s : State) (e : PinEvent) : (s.missed e).readEnabled = s.readEnabled := rfl
@[simp] theorem State.missed_clockLatched (s : State) (e : PinEvent) : (s.missed e).clockLatched = s.clockLatched := rfl
@[simp] theorem State.missed_inbound (s : State) (e : PinEvent) : (s.missed e).inbound = s.inbound := rfl
@[simp] theorem State.missed_outbound (s : State) (e : PinEvent) : (s.missed e).outbound = s.outbound := rfl
@[simp] theorem State.missed_framerState (s : State) (e : PinEvent) : (s.missed e).framerState = s.framerState := rfl
@[simp] theorem State.missed_pins (s : State) (e : PinEvent) : (s.missed e).pins = if (s.answerAt 0).moved then s.pins.after e else s.pins := rfl
@[simp] theorem State.missed_phase (s : State) (e : PinEvent) : (s.missed e).phase = s.phase := rfl
@[simp] theorem State.missed_agenda (s : State) (e : PinEvent) : (s.missed e).agenda = s.agenda := rfl
@[simp] theorem State.missed_resetOwed (s : State) (e : PinEvent) : (s.missed e).resetOwed = s.resetOwed := rfl
@[simp] theorem State.missed_pinAnswers (s : State) (e : PinEvent) : (s.missed e).pinAnswers = s.pinAnswers.tail := rfl
@[simp] theorem State.missed_pinOps (s : State) (e : PinEvent) : (s.missed e).pinOps = s.pinOps + 1 := rfl
@[simp] theorem State.missed_trace (s : State) (e : PinEvent) : (s.missed e).trace = s.trace ++ [e.failure] := rfl
@[simp] theorem State.missed_responses (s : State) (e : PinEvent) : (s.missed e).responses = s.responses := rfl
@[simp] theorem State.missed_reports (s : State) (e : PinEvent) : (s.missed e).reports = s.reports := rfl
@[simp] theorem State.missed_wire (s : State) (e : PinEvent) : (s.missed e).wire = s.wire := rfl

end Sys2Proof.Machine
end

