-- ==== Sys2Proof/Laws/Ops.lean ====
section
/-! SUPPORT. What each shared operation can do, said once: the pin operations and their sequences end in exactly one
of two ways, and everything a sequence of pin operations leaves alone. -/

namespace Sys2Proof.Machine

/-! ## The oracles -/

/-- The answers depend on the listed answers and the count of operations only. -/
theorem answerAt_congr {s t : State} (h₁ : t.pinAnswers = s.pinAnswers) (h₂ : t.pinOps = s.pinOps) (n : Nat) :
    t.answerAt n = s.answerAt n := by
  simp [State.answerAt, h₁, h₂]

theorem answerAt_drop (s : State) (m n : Nat) {t : State} (h₁ : t.pinAnswers = s.pinAnswers.drop m)
    (h₂ : t.pinOps = s.pinOps + m) : t.answerAt n = s.answerAt (m + n) := by
  simp [State.answerAt, h₁, h₂, Nat.add_assoc]

theorem answerAt_made (s : State) (evs : List PinEvent) (n : Nat) :
    (s.made evs).answerAt n = s.answerAt (evs.length + n) :=
  answerAt_drop s _ n rfl rfl

theorem tdoAt_made (s : State) (evs : List PinEvent) (n : Nat) :
    (s.made evs).tdoAt n = s.tdoAt (evs.length + n) := by
  rw [State.tdoAt, answerAt_made]; rfl

theorem allDone_iff (s : State) (n : Nat) : s.allDone n = true ↔ ∀ k < n, (s.answerAt k).isDone = true := by
  simp [State.allDone]

theorem failsAt_iff (s : State) (k : Nat) :
    s.failsAt k = true ↔ (∀ j < k, (s.answerAt j).isDone = true) ∧ (s.answerAt k).isDone = false := by
  simp [State.failsAt, allDone_iff]

/-! ## Sequences of operations that succeed -/

@[simp] theorem made_nil (s : State) : s.made [] = s := by simp [State.made]

theorem made_made (s : State) (a b : List PinEvent) : (s.made a).made b = s.made (a ++ b) := by
  simp [State.made, Nat.add_assoc]

/-- A write to the shift register and a sequence of operations do not see each other. -/
theorem made_setShiftRegister (s : State) (evs : List PinEvent) (r : Byte) :
    State.made { s with shiftRegister := r } evs = { s.made evs with shiftRegister := r } := rfl

/-! ## One operation -/

theorem pinSet_done {s : State} (p : Pin) (l : Level) (h : (s.answerAt 0).isDone = true) :
    pinSet p l s = .ok () (s.made [.set p l]) := by
  unfold pinSet
  split
  · simp [State.made, State.operate, State.drive, Pins.after]
  · simp_all [PinAnswer.isDone]
  · simp_all [PinAnswer.isDone]

theorem pinSet_failed {s : State} (p : Pin) (l : Level) (h : (s.answerAt 0).isDone = false) :
    pinSet p l s = .failed (s.missed (.set p l)) := by
  unfold pinSet
  split
  · simp_all [PinAnswer.isDone]
  · rename_i h'
    simp [State.missed, State.operate, State.drive, Pins.after, PinEvent.failure, h', PinAnswer.moved]
  · rename_i h'
    simp [State.missed, State.operate, PinEvent.failure, h', PinAnswer.moved]

theorem pinRead_done {s : State} (h : (s.answerAt 0).isDone = true) :
    pinRead s = .ok (s.tdoAt 0) (s.made [.read (s.tdoAt 0)]) := by
  unfold pinRead
  split
  · rename_i h'
    simp [State.made, State.operate, State.tdoAt, h', PinAnswer.tdo, Pins.after]
  · simp_all [PinAnswer.isDone]

theorem pinRead_failed {s : State} (h : (s.answerAt 0).isDone = false) (l : Level) :
    pinRead s = .failed (s.missed (.read l)) := by
  unfold pinRead
  split
  · simp_all [PinAnswer.isDone]
  · simp [State.missed, State.operate, PinEvent.failure, Pins.after]

@[simp] theorem andThen_ok {α β : Type} (a : α) (s : State) (f : α → State → Attempt β) :
    (Attempt.ok a s).andThen f = f a s := rfl
@[simp] theorem andThen_failed {α β : Type} (s : State) (f : α → State → Attempt β) :
    (Attempt.failed s : Attempt α).andThen f = .failed s := rfl
@[simp] theorem update_ok {α : Type} (a : α) (s : State) (f : α → State → State) :
    (Attempt.ok a s).update f = .ok () (f a s) := rfl
@[simp] theorem update_failed {α : Type} (s : State) (f : α → State → State) :
    (Attempt.failed s : Attempt α).update f = .failed s := rfl
@[simp] theorem finishByte_ok (s : State) : finishByte (.ok () s) = s.popByte := rfl
@[simp] theorem finishByte_failed (s : State) : finishByte (.failed s) = s.raisePinFault := rfl

/-! ## Applying the levels of a bit-bang command -/

theorem applyLevels_done {s : State} (tdi tms tck : Level) (h : s.allDone 3 = true) :
    applyLevels tdi tms tck s = .ok () (s.made (bitBangEvents tck tms tdi)) := by
  rw [allDone_iff] at h
  unfold applyLevels
  rw [pinSet_done _ _ (h 0 (by omega)), andThen_ok,
    pinSet_done _ _ (by rw [answerAt_made]; exact h 1 (by omega)), andThen_ok, made_made,
    pinSet_done _ _ (by rw [answerAt_made]; exact h 2 (by omega)), made_made]
  rfl

/-- The first failing drive of a bit-bang command ends it there (41_pin_sequencer.md R149). -/
theorem applyLevels_failed {s : State} (tdi tms tck : Level) {k : Nat} {e : PinEvent}
    (he : (bitBangEvents tck tms tdi)[k]? = some e) (h : s.failsAt k = true) :
    applyLevels tdi tms tck s = .failed ((s.made ((bitBangEvents tck tms tdi).take k)).missed e) := by
  rw [failsAt_iff] at h
  obtain ⟨hd, hf⟩ := h
  unfold applyLevels
  match k with
  | 0 => rw [pinSet_failed _ _ hf, andThen_failed]; simp_all [bitBangEvents]
  | 1 =>
    rw [pinSet_done _ _ (hd 0 (by omega)), andThen_ok,
      pinSet_failed _ _ (by rw [answerAt_made]; exact hf), andThen_failed]
    simp_all [bitBangEvents]
  | 2 =>
    rw [pinSet_done _ _ (hd 0 (by omega)), andThen_ok,
      pinSet_done _ _ (by rw [answerAt_made]; exact hd 1 (by omega)), andThen_ok, made_made,
      pinSet_failed _ _ (by rw [answerAt_made]; exact hf)]
    simp_all [bitBangEvents]
  | k + 3 => simp [bitBangEvents] at he

/-! ## Pulses -/

/-- The events of one pulse (41_pin_sequencer.md R146). -/
def pulseEvents (read : Bool) (out t : Level) : List PinEvent :=
  if read then [.set .tdi out, .read t, .set .tck true, .set .tck false]
  else [.set .tdi out, .set .tck true, .set .tck false]

/-- How many pin operations a pulse makes. -/
def pulseOps (read : Bool) : Nat := if read then 4 else 3

@[simp] theorem pulseEvents_length (read : Bool) (out t : Level) : (pulseEvents read out t).length = pulseOps read := by
  cases read <;> rfl

/-- The bit a pulse of a byte shifts in: the sample, or 0 where nothing is sensed (R146). -/
def State.sampledAt (s : State) (read : Bool) (k : Nat) : Level := read && s.tdoAt k

theorem pulse_done {s : State} (read : Bool) (h : s.allDone (pulseOps read) = true) :
    pulse read s = .ok () { s.made (pulseEvents read (s.shiftRegister.getLsbD 0) (s.sampledAt read 1)) with
      shiftRegister := shiftIn (s.sampledAt read 1) s.shiftRegister } := by
  rw [allDone_iff] at h
  unfold pulse sample
  cases read <;> simp only [pulseOps, if_true, if_false, Bool.false_eq_true] at h
  · rw [pinSet_done _ _ (h 0 (by omega))]
    simp only [andThen_ok, Bool.false_eq_true, if_false]
    rw [pinSet_done _ _ (by rw [answerAt_made]; exact h 1 (by omega)), andThen_ok, made_made,
      pinSet_done _ _ (by rw [answerAt_made]; exact h 2 (by omega)), made_made]
    simp [pulseEvents, State.sampledAt]
  · rw [pinSet_done _ _ (h 0 (by omega))]
    simp only [andThen_ok, if_true]
    rw [pinRead_done (by rw [answerAt_made]; exact h 1 (by omega)), andThen_ok, made_made,
      pinSet_done _ _ (by rw [answerAt_made]; exact h 2 (by omega)), andThen_ok, made_made,
      pinSet_done _ _ (by rw [answerAt_made]; exact h 3 (by omega)), made_made]
    simp [pulseEvents, State.sampledAt, tdoAt_made]

/-- The first failing operation of a pulse ends it there, before its shift (R146, R149). -/
theorem pulse_failed {s : State} (read : Bool) (t : Level) {k : Nat} {e : PinEvent}
    (ht : read = true → 1 < k → t = s.tdoAt 1)
    (he : (pulseEvents read (s.shiftRegister.getLsbD 0) t)[k]? = some e) (h : s.failsAt k = true) :
    pulse read s = .failed ((s.made ((pulseEvents read (s.shiftRegister.getLsbD 0) t).take k)).missed e) := by
  rw [failsAt_iff] at h
  obtain ⟨hd, hf⟩ := h
  unfold pulse sample
  cases read <;> simp only [pulseEvents, Bool.false_eq_true, if_false, if_true] at he ⊢
  · match k with
    | 0 => rw [pinSet_failed _ _ hf]; simp_all
    | 1 =>
      rw [pinSet_done _ _ (hd 0 (by omega)), andThen_ok, andThen_ok,
        pinSet_failed _ _ (by rw [answerAt_made]; exact hf)]
      simp_all
    | 2 =>
      rw [pinSet_done _ _ (hd 0 (by omega)), andThen_ok, andThen_ok,
        pinSet_done _ _ (by rw [answerAt_made]; exact hd 1 (by omega)), andThen_ok, made_made,
        pinSet_failed _ _ (by rw [answerAt_made]; exact hf)]
      simp_all
    | k + 3 => simp at he
  · match k with
    | 0 => rw [pinSet_failed _ _ hf]; simp_all
    | 1 =>
      rw [pinSet_done _ _ (hd 0 (by omega)), andThen_ok, pinRead_failed (by rw [answerAt_made]; exact hf) t]
      simp_all
    | 2 =>
      rw [pinSet_done _ _ (hd 0 (by omega)), andThen_ok, pinRead_done (by rw [answerAt_made]; exact hd 1 (by omega)),
        andThen_ok, made_made, tdoAt_made, pinSet_failed _ _ (by rw [answerAt_made]; exact hf)]
      simp_all
    | 3 =>
      rw [pinSet_done _ _ (hd 0 (by omega)), andThen_ok, pinRead_done (by rw [answerAt_made]; exact hd 1 (by omega)),
        andThen_ok, made_made, tdoAt_made, pinSet_done _ _ (by rw [answerAt_made]; exact hd 2 (by omega)), andThen_ok,
        made_made, pinSet_failed _ _ (by rw [answerAt_made]; exact hf)]
      simp_all
    | k + 4 => simp at he

/-- The shift register after `k` pulses, bit by bit: `d[7]..d[k]` below the samples `t_{k-1}..t_0` (R147). -/
theorem registerAfter_bit (d : Byte) (t : Nat → Level) (k i : Nat) (hi : i < 8) (hk : k ≤ 8) :
    (registerAfter d t k).getLsbD i = if i + k < 8 then d.getLsbD (i + k) else t (i + k - 8) := by
  induction k generalizing i with
  | zero => simp [registerAfter, hi]
  | succ k ih =>
    have hs : (registerAfter d t (k + 1)).getLsbD i
        = ((decide (i = 7) && t k) || (registerAfter d t k).getLsbD (i + 1)) := by
      simp only [registerAfter, shiftIn, BitVec.getLsbD_or, BitVec.getLsbD_shiftLeft, BitVec.getLsbD_setWidth,
        BitVec.getLsbD_ofBool, BitVec.getLsbD_ushiftRight]
      rcases Nat.lt_or_ge i 7 with h | h
      · simp [h, hi, show i ≠ 7 by omega, Nat.add_comm]
      · obtain rfl : i = 7 := by omega
        simp
    rw [hs]
    rcases Nat.lt_or_ge i 7 with h | h
    · rw [ih (i + 1) (by omega) (by omega)]
      simp [show i ≠ 7 by omega, show i + 1 + k = i + (k + 1) by omega]
    · obtain rfl : i = 7 := by omega
      simp [show ¬ 7 + (k + 1) < 8 by omega, show 7 + (k + 1) - 8 = k by omega]

/-- The bit that goes out in pulse `k` is bit `k` of the byte (R147). -/
theorem registerAfter_out (d : Byte) (t : Nat → Level) {k : Nat} (hk : k < 8) :
    (registerAfter d t k).getLsbD 0 = d.getLsbD k := by
  rw [registerAfter_bit d t k 0 (by omega) (by omega)]
  simp [hk]

/-- The events of the first `n` pulses of a byte `d` with the samples `t`. -/
def byteEvents (read : Bool) (d : Byte) (t : Nat → Level) (n : Nat) : List PinEvent :=
  (List.range n).flatMap fun i => pulseEvents read (d.getLsbD i) (t i)

theorem byteEvents_succ (read : Bool) (d : Byte) (t : Nat → Level) (n : Nat) :
    byteEvents read d t (n + 1) = byteEvents read d t n ++ pulseEvents read (d.getLsbD n) (t n) := by
  simp [byteEvents, List.range_succ]

@[simp] theorem byteEvents_length (read : Bool) (d : Byte) (t : Nat → Level) (n : Nat) :
    (byteEvents read d t n).length = n * pulseOps read := by
  induction n with
  | zero => simp [byteEvents]
  | succ n ih => rw [byteEvents_succ, List.length_append, ih, pulseEvents_length, Nat.succ_mul]

/-- A pulse more at the end. -/
theorem pulses_succ (read : Bool) (n : Nat) (s : State) :
    pulses read (n + 1) s = (pulses read n s).andThen fun _ s => pulse read s := by
  induction n generalizing s with
  | zero => simp only [pulses, andThen_ok]; cases pulse read s <;> rfl
  | succ n ih =>
    rw [pulses]
    conv_rhs => rw [pulses]
    cases pulse read s with
    | ok a s => exact ih s
    | failed s => rfl

/-- The samples of the pulses of a byte, as the oracles will give them. -/
def State.samples (s : State) (read : Bool) (i : Nat) : Level := s.sampledAt read (i * pulseOps read + 1)

/-- `n` pulses that succeed (R147). -/
theorem pulses_done {s : State} (read : Bool) {n : Nat} (hn : n ≤ 8) (h : s.allDone (n * pulseOps read) = true) :
    pulses read n s = .ok () { s.made (byteEvents read s.shiftRegister (s.samples read) n) with
      shiftRegister := registerAfter s.shiftRegister (s.samples read) n } := by
  induction n with
  | zero => simp [pulses, byteEvents, registerAfter]
  | succ n ih =>
    rw [allDone_iff] at h
    have hm : (n + 1) * pulseOps read = n * pulseOps read + pulseOps read := Nat.succ_mul _ _
    rw [pulses_succ, ih (by omega) (by rw [allDone_iff]; intro k hk; exact h k (by omega)), andThen_ok,
      pulse_done read]
    · simp only [made_setShiftRegister, made_made, registerAfter_out _ _ (show n < 8 by omega), byteEvents_succ]
      have ht : State.sampledAt { s.made (byteEvents read s.shiftRegister (s.samples read) n) with
          shiftRegister := registerAfter s.shiftRegister (s.samples read) n } read 1 = s.samples read n := by
        simp only [State.samples, State.sampledAt, State.tdoAt]
        rw [answerAt_drop s (n * pulseOps read) 1 (by simp [State.made]) (by simp [State.made])]
      rw [ht]
      rfl
    · rw [allDone_iff]
      intro k hk
      rw [answerAt_drop s (n * pulseOps read) k (by simp [State.made]) (by simp [State.made])]
      exact h _ (by omega)

/-- The first failing operation of a row of pulses ends it there; the register was shifted once for each completed
pulse (R149; 44_batch_processing.md R206). -/
theorem pulses_failed {s : State} (read : Bool) {n k : Nat} {e : PinEvent} (hn : n ≤ 8)
    (he : (byteEvents read s.shiftRegister (s.samples read) n)[k]? = some e) (h : s.failsAt k = true) :
    pulses read n s = .failed
      { (s.made ((byteEvents read s.shiftRegister (s.samples read) n).take k)).missed e with
        shiftRegister := registerAfter s.shiftRegister (s.samples read) (k / pulseOps read) } := by
  have hpos : 0 < pulseOps read := by cases read <;> decide
  induction n with
  | zero => simp [byteEvents] at he
  | succ n ih =>
    rw [byteEvents_succ] at he ⊢
    rw [pulses_succ]
    rcases Nat.lt_or_ge k (n * pulseOps read) with hk | hk
    · rw [List.getElem?_append_left (by simpa using hk)] at he
      rw [ih (by omega) he, andThen_failed, List.take_append_of_le_length (by simpa using Nat.le_of_lt hk)]
    · rw [List.getElem?_append_right (by simpa using hk)] at he
      simp only [byteEvents_length] at he
      have hlt : k - n * pulseOps read < pulseOps read := by
        have := (List.getElem?_eq_some_iff.mp he).1
        simpa using this
      have hdiv : k / pulseOps read = n := by
        apply Nat.div_eq_of_lt_le
        · omega
        · rw [Nat.succ_mul]; omega
      rw [failsAt_iff] at h
      obtain ⟨hd, hf⟩ := h
      rw [pulses_done read (by omega) (by rw [allDone_iff]; intro j hj; exact hd j (by omega)), andThen_ok]
      have hans : ∀ j, State.answerAt { s.made (byteEvents read s.shiftRegister (s.samples read) n) with
          shiftRegister := registerAfter s.shiftRegister (s.samples read) n } j = s.answerAt (n * pulseOps read + j) :=
        fun j => answerAt_drop s _ j (by simp [State.made]) (by simp [State.made])
      rw [pulse_failed read (s.samples read n) (k := k - n * pulseOps read) (e := e)]
      · simp only [registerAfter_out _ _ (show n < 8 by omega), made_setShiftRegister, made_made, hdiv]
        rw [List.take_append, List.take_of_length_le (i := k) (by simpa using hk)]
        simp only [byteEvents_length, State.missed, State.made]
        congr 1
      · rintro rfl -
        rw [State.tdoAt, hans]
        simp [State.samples, State.sampledAt, State.tdoAt]
      · rw [registerAfter_out _ _ (show n < 8 by omega)]
        exact he
      · rw [failsAt_iff]
        refine ⟨fun j hj => ?_, ?_⟩
        · rw [hans]; exact hd _ (by omega)
        · rw [hans, show n * pulseOps read + (k - n * pulseOps read) = k by omega]; exact hf

/-! ## Whole bytes -/

/-- Either the next `n` operations succeed, or one of them is the first that fails. -/
theorem allDone_or_failsAt (s : State) (n : Nat) : s.allDone n = true ∨ ∃ k < n, s.failsAt k = true := by
  induction n with
  | zero => left; simp [State.allDone]
  | succ n ih =>
    rcases ih with h | ⟨k, hk, hf⟩
    · cases hd : (s.answerAt n).isDone
      · exact .inr ⟨n, by omega, by simp [State.failsAt, h, hd]⟩
      · left
        rw [allDone_iff] at h ⊢
        intro k hk
        rcases Nat.lt_or_ge k n with hlt | hge
        · exact h k hlt
        · obtain rfl : k = n := by omega
          exact hd
    · exact .inr ⟨k, by omega, hf⟩

theorem dataEvents_eq (d : Byte) (t : Nat → Level) : dataEvents d = byteEvents false d t 8 := rfl

theorem datarEvents_eq (d : Byte) (t : Nat → Level) : datarEvents d t = byteEvents true d t 8 := rfl

/-- After the eighth pulse the register holds the samples, first sample in bit 0 (R147). -/
theorem registerAfter_eight (d : Byte) (t : Nat → Level) : registerAfter d t 8 = samplesByte t := by
  apply BitVec.eq_of_getLsbD_eq
  intro i hi
  rw [registerAfter_bit d t 8 i hi (by omega), if_neg (by omega), Nat.add_sub_cancel]
  simp only [samplesByte, BitVec.getLsbD_append, BitVec.getLsbD_ofBool]
  match i, hi with
  | 0, _ | 1, _ | 2, _ | 3, _ | 4, _ | 5, _ | 6, _ | 7, _ => simp

/-- With nothing sampled the register ends at zero (R147). -/
theorem samplesByte_false : samplesByte (fun _ => false) = 0 := by decide

/-- A sequence of pin operations, whatever its outcome, touches the shift register, the pins and the oracles, and
records its events. -/
def PinOnly (s t : State) : Prop :=
  t = { s with shiftRegister := t.shiftRegister, pins := t.pins, pinAnswers := t.pinAnswers, pinOps := t.pinOps, trace := t.trace }

theorem PinOnly.refl (s : State) : PinOnly s s := rfl

theorem PinOnly.trans {s t u : State} (h₁ : PinOnly s t) (h₂ : PinOnly t u) : PinOnly s u := by
  unfold PinOnly at *
  rw [h₂, h₁]

theorem pinOnly_made (s : State) (evs : List PinEvent) : PinOnly s (s.made evs) := rfl

theorem pinOnly_missed (s : State) (e : PinEvent) : PinOnly s (s.missed e) := rfl

theorem pinOnly_setShiftRegister (s : State) (r : Byte) : PinOnly s { s with shiftRegister := r } := rfl

/-! ## The framer -/

/-- Everything an inbound read can do (45_control_and_framer.md R230). -/
theorem framerRead_cases (offered : List Byte) (s : State) :
    framerRead offered s = s.report (.condition .transientWouldBlock) ∨
      ∃ bs, bs ≠ [] ∧ bs = offered.take (s.params.inCap - s.inLen) ∧ s.inLen < s.params.inCap ∧
        framerRead offered s = State.report { s with inbound := s.inbound ++ bs } (.took bs.length) := by
  unfold framerRead
  split
  · exact .inl rfl
  · split
    · exact .inl rfl
    · rename_i h b bs hb
      exact .inr ⟨b :: bs, by simp, hb.symm, by omega, rfl⟩

/-- Everything an outbound write can do (45_control_and_framer.md R231, R232). -/
theorem framerWrite_cases (w : WriteCall) (s : State) :
    (s.mustSend w.heartbeat = false ∧ framerWrite w s = s.report .skipped) ∨
    (s.mustSend w.heartbeat = true ∧ s.accepted w = 0 ∧
      framerWrite w s = s.report (.condition .transientWouldBlock)) ∨
    (s.mustSend w.heartbeat = true ∧ s.accepted w = 1 ∧ framerWrite w s = (s.transfer 1).raiseFramingFault) ∨
    ∃ k, s.mustSend w.heartbeat = true ∧ s.accepted w = k + 2 ∧
      framerWrite w s = State.report { s.transfer (k + 2) with outbound := s.outbound.drop k, framerState := .idle }
        (.sent (k + 2)) := by
  unfold framerWrite
  cases hm : s.mustSend w.heartbeat
  · exact .inl ⟨rfl, by simp⟩
  · simp only [if_true]
    split
    · rename_i h; exact .inr (.inl ⟨trivial, h, rfl⟩)
    · rename_i h; exact .inr (.inr (.inl ⟨trivial, h, rfl⟩))
    · rename_i k h; exact .inr (.inr (.inr ⟨k, trivial, h, rfl⟩))

end Sys2Proof.Machine
end

