-- ==== Sys2Proof/Laws/Byte.lean ====
section
/-! SUPPORT. Everything a byte form can do, said once: it ends with all its pin operations made and its byte popped, or
at its first failed operation with a `PinFault`. -/

namespace Sys2Proof.Machine

/-- A byte handled to its end: its events are made, its registers written, at most one response is pushed, the byte is
popped. -/
structure ByteDone (s t : State) (evs : List PinEvent) (rs : List Byte) : Prop where
  made : evs.all (fun e => !e.isFailure) = true
  short : evs.length ≤ 32
  one : rs.length ≤ 1
  running : s.tap ≠ .fault → t.tap ≠ .fault
  eq : t = State.popByte { s.made evs with
    tap := t.tap, shiftRemaining := t.shiftRemaining, shiftRegister := t.shiftRegister, readEnabled := t.readEnabled
    clockLatched := t.clockLatched, outbound := s.outbound ++ rs, responses := s.responses ++ rs }

/-- A byte aborted at the operation that would have made `e`: what it did before stays, and `PinFault` is raised. -/
structure ByteFailed (s t : State) (evs : List PinEvent) (e : PinEvent) : Prop where
  made : evs.all (fun e => !e.isFailure) = true
  short : evs.length < 32
  real : e.isFailure = false
  eq : t = State.raisePinFault { (s.made evs).missed e with
    shiftRegister := t.shiftRegister, clockLatched := t.clockLatched }

theorem all_take {α : Type} (p : α → Bool) (l : List α) (k : Nat) (h : l.all p = true) : (l.take k).all p = true := by
  rw [List.all_eq_true] at h ⊢
  exact fun x hx => h x (List.mem_of_mem_take hx)

theorem bitBangEvents_all (tck tms tdi : Level) :
    (bitBangEvents tck tms tdi).all (fun e => !e.isFailure) = true := rfl

theorem pulseEvents_all (read : Bool) (out t : Level) :
    (pulseEvents read out t).all (fun e => !e.isFailure) = true := by
  cases read <;> rfl

theorem byteEvents_all (read : Bool) (d : Byte) (t : Nat → Level) (n : Nat) :
    (byteEvents read d t n).all (fun e => !e.isFailure) = true := by
  induction n with
  | zero => rfl
  | succ n ih => rw [byteEvents_succ, List.all_append, ih, pulseEvents_all]; rfl

theorem isFailure_of_all {l : List PinEvent} {k : Nat} {e : PinEvent}
    (h : l.all (fun e => !e.isFailure) = true) (he : l[k]? = some e) : e.isFailure = false := by
  rw [List.all_eq_true] at h
  simpa using h e (List.mem_of_getElem? he)

/-- No transition leads to `Fault` (40_tap_advance.md R110). -/
theorem detectRelease_running (tms tck : Level) {s : State} (h : s.tap ≠ .fault) :
    (detectRelease tms tck s).tap ≠ .fault := by
  rw [detectRelease_tap]
  split
  · cases ht : s.tap with
    | fault => exact absurd ht h
    | running c => simp [TapState.advance]
  · exact h

/-- Bit-bang commands, with or without READ. -/
theorem bitBang_cases (tck tms tdi : Level) (s : State) :
    (s.allDone 3 = true ∧
      bitBang tck tms tdi s = .ok () (detectRelease tms tck (s.made (bitBangEvents tck tms tdi)))) ∨
    ∃ k e, (bitBangEvents tck tms tdi)[k]? = some e ∧ s.failsAt k = true ∧
      bitBang tck tms tdi s = .failed ((s.made ((bitBangEvents tck tms tdi).take k)).missed e) := by
  rcases allDone_or_failsAt s 3 with h | ⟨k, hk, h⟩
  · exact .inl ⟨h, by rw [bitBang, applyLevels_done _ _ _ h, update_ok]⟩
  · have hk' : k < (bitBangEvents tck tms tdi).length := hk
    exact .inr ⟨k, _, List.getElem?_eq_getElem hk', h, by
      rw [bitBang, applyLevels_failed _ _ _ (List.getElem?_eq_getElem hk') h, update_failed]⟩

/-- Data bytes, with or without READ. -/
theorem shiftByte_cases (read : Bool) (d : Byte) (s : State) :
    (s.allDone (8 * pulseOps read) = true ∧
      shiftByte read d s = .ok () { s.made (byteEvents read d (s.samples read) 8) with
        shiftRegister := registerAfter d (s.samples read) 8 }) ∨
    ∃ k e, (byteEvents read d (s.samples read) 8)[k]? = some e ∧ s.failsAt k = true ∧
      shiftByte read d s = .failed { (s.made ((byteEvents read d (s.samples read) 8).take k)).missed e with
        shiftRegister := registerAfter d (s.samples read) (k / pulseOps read) } := by
  rcases allDone_or_failsAt s (8 * pulseOps read) with h | ⟨k, hk, h⟩
  · exact .inl ⟨h, pulses_done (s := { s with shiftRegister := d }) read (by omega) h⟩
  · have hk' : k < (byteEvents read d (s.samples read) 8).length := by simpa using hk
    exact .inr ⟨k, _, List.getElem?_eq_getElem hk', h,
      pulses_failed (s := { s with shiftRegister := d }) read (by omega) (List.getElem?_eq_getElem hk') h⟩

theorem byteEvents_eight_le (read : Bool) (d : Byte) (t : Nat → Level) : (byteEvents read d t 8).length ≤ 32 := by
  rw [byteEvents_length]; cases read <;> decide

/-- Every byte form ends in one of the two ways, and always in a next state. -/
theorem byte_cases (i : Instr) (hi : isByte i = true) (s : State) :
    ∃ t, exec i s = .next t ∧ ((∃ evs rs, ByteDone s t evs rs) ∨ ∃ evs e, ByteFailed s t evs e) := by
  cases i <;> try (simp [isByte] at hi; done)
  case bb tck tms tdi =>
    rcases bitBang_cases tck tms tdi s with ⟨_, h⟩ | ⟨k, e, he, _, h⟩ <;> refine ⟨_, by rw [exec, execBb, h], ?_⟩
    · exact .inl ⟨bitBangEvents tck tms tdi, [], rfl, by simp [bitBangEvents], by decide,
        fun hs => detectRelease_running tms tck hs, by
        simp [finishByte, State.made, State.popByte, detectRelease]⟩
    · have hk : k < 3 := (List.getElem?_eq_some_iff.mp he).1
      refine .inr ⟨(bitBangEvents tck tms tdi).take k, e, all_take _ _ _ rfl, ?_, isFailure_of_all rfl he, rfl⟩
      rw [List.length_take]; omega
  case bbr tck tms tdi =>
    rcases bitBang_cases tck tms tdi s with ⟨_, h⟩ | ⟨k, e, he, _, h⟩
    · cases hd : ((detectRelease tms tck (s.made (bitBangEvents tck tms tdi))).answerAt 0).isDone
      · refine ⟨_, by rw [exec, execBbr, h, andThen_ok, pinRead_failed hd false, update_failed], .inr ?_⟩
        exact ⟨bitBangEvents tck tms tdi, .read false, rfl, by simp [bitBangEvents], rfl, rfl⟩
      · refine ⟨_, by rw [exec, execBbr, h, andThen_ok, pinRead_done hd, update_ok], .inl ?_⟩
        refine ⟨bitBangEvents tck tms tdi ++
          [.read ((detectRelease tms tck (s.made (bitBangEvents tck tms tdi))).tdoAt 0)],
          [bitBangResponse s.params ((detectRelease tms tck (s.made (bitBangEvents tck tms tdi))).tdoAt 0)],
          ?_, ?_, ?_, fun hs => detectRelease_running tms tck hs, ?_⟩
        · rw [List.all_append, bitBangEvents_all]; rfl
        · simp [bitBangEvents]
        · exact Nat.le_refl 1
        · simp only [finishByte_ok, ← made_made]; rfl
    · refine ⟨_, by rw [exec, execBbr, h, andThen_failed, update_failed], .inr ?_⟩
      have hk : k < 3 := (List.getElem?_eq_some_iff.mp he).1
      refine ⟨(bitBangEvents tck tms tdi).take k, e, all_take _ _ _ rfl, ?_, isFailure_of_all rfl he, rfl⟩
      rw [List.length_take]; omega
  case shift count => exact ⟨_, rfl, .inl ⟨[], [], rfl, by decide, by decide, id, by simp [openBurst, State.popByte]⟩⟩
  case shiftr count => exact ⟨_, rfl, .inl ⟨[], [], rfl, by decide, by decide, id, by simp [openBurst, State.popByte]⟩⟩
  case data d =>
    rcases shiftByte_cases false d s with ⟨_, h⟩ | ⟨k, e, he, _, h⟩ <;> refine ⟨_, by rw [exec, execData, h], ?_⟩
    · exact .inl ⟨_, [], byteEvents_all _ _ _ _, byteEvents_eight_le _ _ _, by decide, id, by
        simp only [update_ok, finishByte_ok, List.append_nil]; rfl⟩
    · have hk := (List.getElem?_eq_some_iff.mp he).1
      have h32 := byteEvents_eight_le false d (s.samples false)
      refine .inr ⟨_, e, all_take _ _ k (byteEvents_all false d (s.samples false) 8), ?_,
        isFailure_of_all (byteEvents_all _ _ _ _) he, rfl⟩
      rw [List.length_take]; omega
  case datar d =>
    rcases shiftByte_cases true d s with ⟨_, h⟩ | ⟨k, e, he, _, h⟩ <;> refine ⟨_, by rw [exec, execDatar, h], ?_⟩
    · exact .inl ⟨_, [registerAfter d (s.samples true) 8], byteEvents_all _ _ _ _, byteEvents_eight_le _ _ _,
        Nat.le_refl 1, id, by simp only [update_ok, finishByte_ok]; rfl⟩
    · have hk := (List.getElem?_eq_some_iff.mp he).1
      have h32 := byteEvents_eight_le true d (s.samples true)
      refine .inr ⟨_, e, all_take _ _ k (byteEvents_all true d (s.samples true) 8), ?_,
        isFailure_of_all (byteEvents_all _ _ _ _) he, rfl⟩
      rw [List.length_take]; omega

end Sys2Proof.Machine
end

