-- ==== Sys2Proof/Laws/Decode.lean ====
section
/-! SUPPORT. The encoder's bytes, bit by bit. -/

namespace Sys2Proof

/-- A bit moved to place `k` of a byte. -/
theorem placed_bit (l : Bool) {k i : Nat} (hk : k < 8) (hi : i < 8) :
    ((BitVec.ofBool l).setWidth 8 <<< k).getLsbD i = (decide (i = k) && l) := by
  simp only [BitVec.getLsbD_shiftLeft, BitVec.getLsbD_setWidth, BitVec.getLsbD_ofBool]
  rcases Nat.lt_trichotomy i k with h | h | h
  · simp [h, Nat.ne_of_lt h]
  · subst h; simp [hi]
  · simp [show ¬ i < k by omega, show i - k ≠ 0 by omega, show i ≠ k by omega]

/-- Bit `i` of a bit-bang command byte in the notation of 30_encoding.md R93. -/
theorem bitBangByte_bit (p : Params) (read tck tms tdi : Bool) {i : Nat} (hi : i < 8) :
    (bitBangByte p read tck tms tdi).getLsbD i =
      ((decide (i = p.tdiBit.val) && tdi) || (decide (i = p.tmsBit.val) && tms) ||
        (decide (i = p.tckBit.val) && tck) || (decide (i = 6) && read)) := by
  have h₁ := p.tdiBit.isLt
  have h₂ := p.tmsBit.isLt
  have h₃ := p.tckBit.isLt
  rw [bitBangByte, BitVec.getLsbD_or, BitVec.getLsbD_or, BitVec.getLsbD_or, placed_bit _ (by omega) hi,
    placed_bit _ (by omega) hi, placed_bit _ (by omega) hi, placed_bit _ (by omega) hi]

/-- A shift command byte carries its count in bits 5..0 under the two fixed bits (30_encoding.md R84). -/
theorem shiftByte_fields : ∀ count : BitVec 6,
    (0x80#8 ||| count.setWidth 8).getLsbD 7 = true ∧ (0x80#8 ||| count.setWidth 8).getLsbD 6 = false ∧
      (0x80#8 ||| count.setWidth 8).extractLsb' 0 6 = count := by decide

theorem shiftrByte_fields : ∀ count : BitVec 6,
    (0xC0#8 ||| count.setWidth 8).getLsbD 7 = true ∧ (0xC0#8 ||| count.setWidth 8).getLsbD 6 = true ∧
      (0xC0#8 ||| count.setWidth 8).extractLsb' 0 6 = count := by decide

end Sys2Proof
end

