-- ==== Sys2Proof/Laws/PerInstr.lean ====
section
/-! SUPPORT. Facts about every instruction as syntax, one lemma for each constructor. -/

namespace Sys2Proof.Laws

/-- The format of a row of the opcode table, with its `match` and `mask` where the table gives them. -/
inductive Row where
  | byte (pattern mask : Byte)
  | tap (pattern : BitVec 5)
  | control
  deriving DecidableEq, Repr

/-- The rows of spec/opcode_table.json: format, `match`, `mask`. The mask of every `tap` row is 0x1F. -/
def row : Instr → Row
  | .bb _ _ _ => .byte 0x00 0xC0
  | .bbr _ _ _ => .byte 0x40 0xC0
  | .shift _ => .byte 0x80 0xC0
  | .shiftr _ => .byte 0xC0 0xC0
  | .data _ => .byte 0x00 0x00
  | .datar _ => .byte 0x00 0x00
  | .advanceReset0 => .tap 0x00
  | .advanceReset1 => .tap 0x01
  | .advanceRunIdle0 => .tap 0x02
  | .advanceRunIdle1 => .tap 0x03
  | .advanceSelectIR0 => .tap 0x04
  | .advanceSelectIR1 => .tap 0x05
  | .advanceCaptureIR0 => .tap 0x06
  | .advanceCaptureIR1 => .tap 0x07
  | .advanceShiftIR0 => .tap 0x08
  | .advanceShiftIR1 => .tap 0x09
  | .advanceExit1IR0 => .tap 0x0A
  | .advanceExit1IR1 => .tap 0x0B
  | .advancePauseIR0 => .tap 0x0C
  | .advancePauseIR1 => .tap 0x0D
  | .advanceExit2IR0 => .tap 0x0E
  | .advanceExit2IR1 => .tap 0x0F
  | .advanceUpdateIR0 => .tap 0x10
  | .advanceUpdateIR1 => .tap 0x11
  | .advanceSelectDR0 => .tap 0x12
  | .advanceSelectDR1 => .tap 0x13
  | .advanceCaptureDR0 => .tap 0x14
  | .advanceCaptureDR1 => .tap 0x15
  | .advanceShiftDR0 => .tap 0x16
  | .advanceShiftDR1 => .tap 0x17
  | .advanceExit1DR0 => .tap 0x18
  | .advanceExit1DR1 => .tap 0x19
  | .advancePauseDR0 => .tap 0x1A
  | .advancePauseDR1 => .tap 0x1B
  | .advanceExit2DR0 => .tap 0x1C
  | .advanceExit2DR1 => .tap 0x1D
  | .advanceUpdateDR0 => .tap 0x1E
  | .advanceUpdateDR1 => .tap 0x1F
  | .reset0 => .control
  | .reset1 => .control
  | .reset2 => .control
  | .resetOther _ => .control
  | .busReset => .control
  | .eepromWrite _ _ => .control
  | .eepromErase _ _ => .control
  | .eepromRead _ => .control
  | .modemStatusQuery => .control
  | .latencyTimerQuery => .control
  | .vendorOther _ _ => .control

/-- A code has the fixed bits of a row. -/
def fits : Row → Code → Prop
  | .byte pattern mask, .byte b => b &&& mask = pattern
  | .tap pattern, .pattern w => w = pattern
  | .control, .request _ => True
  | .control, .busReset => True
  | _, _ => False

/-- The encoder writes every instruction with the fixed bits its row of the opcode table gives. -/
def FixedBits.Statement (i : Instr) : Prop := ∀ p : Params, fits (row i) (encode p i)

/-- No bit of a bit-bang byte below bit 6 can reach bits 7 and 6. -/
theorem bitBangByte_fixed (p : Params) (read tck tms tdi : Bool) :
    bitBangByte p read tck tms tdi &&& 0xC0#8 = if read then 0x40#8 else 0x00#8 := by
  have low : ∀ (k : Fin 5) (l : Bool), ((BitVec.ofBool l).setWidth 8 <<< k.val) &&& 0xC0#8 = 0x00#8 := by decide
  have top : ∀ r : Bool, ((BitVec.ofBool r).setWidth 8 <<< 6) &&& 0xC0#8 = if r then 0x40#8 else 0x00#8 := by decide
  have split : ∀ a b m : Byte, (a ||| b) &&& m = (a &&& m) ||| (b &&& m) := by
    intro a b m
    ext i
    simp [Bool.and_or_distrib_right]
  rw [bitBangByte, split, split, split, low, low, low, top]
  cases read <;> rfl

theorem FixedBits.bb (tck tms tdi : Level) : FixedBits.Statement (.bb tck tms tdi) := fun p => bitBangByte_fixed p false tck tms tdi
theorem FixedBits.bbr (tck tms tdi : Level) : FixedBits.Statement (.bbr tck tms tdi) := fun p => bitBangByte_fixed p true tck tms tdi
theorem FixedBits.shift (count : BitVec 6) : FixedBits.Statement (.shift count) := by
  intro p
  show _ &&& _ = _
  revert count
  decide
theorem FixedBits.shiftr (count : BitVec 6) : FixedBits.Statement (.shiftr count) := by
  intro p
  show _ &&& _ = _
  revert count
  decide
theorem FixedBits.data (d : Byte) : FixedBits.Statement (.data d) := fun _ => BitVec.and_zero
theorem FixedBits.datar (d : Byte) : FixedBits.Statement (.datar d) := fun _ => BitVec.and_zero
theorem FixedBits.advanceReset0 : FixedBits.Statement .advanceReset0 := fun _ => rfl
theorem FixedBits.advanceReset1 : FixedBits.Statement .advanceReset1 := fun _ => rfl
theorem FixedBits.advanceRunIdle0 : FixedBits.Statement .advanceRunIdle0 := fun _ => rfl
theorem FixedBits.advanceRunIdle1 : FixedBits.Statement .advanceRunIdle1 := fun _ => rfl
theorem FixedBits.advanceSelectIR0 : FixedBits.Statement .advanceSelectIR0 := fun _ => rfl
theorem FixedBits.advanceSelectIR1 : FixedBits.Statement .advanceSelectIR1 := fun _ => rfl
theorem FixedBits.advanceCaptureIR0 : FixedBits.Statement .advanceCaptureIR0 := fun _ => rfl
theorem FixedBits.advanceCaptureIR1 : FixedBits.Statement .advanceCaptureIR1 := fun _ => rfl
theorem FixedBits.advanceShiftIR0 : FixedBits.Statement .advanceShiftIR0 := fun _ => rfl
theorem FixedBits.advanceShiftIR1 : FixedBits.Statement .advanceShiftIR1 := fun _ => rfl
theorem FixedBits.advanceExit1IR0 : FixedBits.Statement .advanceExit1IR0 := fun _ => rfl
theorem FixedBits.advanceExit1IR1 : FixedBits.Statement .advanceExit1IR1 := fun _ => rfl
theorem FixedBits.advancePauseIR0 : FixedBits.Statement .advancePauseIR0 := fun _ => rfl
theorem FixedBits.advancePauseIR1 : FixedBits.Statement .advancePauseIR1 := fun _ => rfl
theorem FixedBits.advanceExit2IR0 : FixedBits.Statement .advanceExit2IR0 := fun _ => rfl
theorem FixedBits.advanceExit2IR1 : FixedBits.Statement .advanceExit2IR1 := fun _ => rfl
theorem FixedBits.advanceUpdateIR0 : FixedBits.Statement .advanceUpdateIR0 := fun _ => rfl
theorem FixedBits.advanceUpdateIR1 : FixedBits.Statement .advanceUpdateIR1 := fun _ => rfl
theorem FixedBits.advanceSelectDR0 : FixedBits.Statement .advanceSelectDR0 := fun _ => rfl
theorem FixedBits.advanceSelectDR1 : FixedBits.Statement .advanceSelectDR1 := fun _ => rfl
theorem FixedBits.advanceCaptureDR0 : FixedBits.Statement .advanceCaptureDR0 := fun _ => rfl
theorem FixedBits.advanceCaptureDR1 : FixedBits.Statement .advanceCaptureDR1 := fun _ => rfl
theorem FixedBits.advanceShiftDR0 : FixedBits.Statement .advanceShiftDR0 := fun _ => rfl
theorem FixedBits.advanceShiftDR1 : FixedBits.Statement .advanceShiftDR1 := fun _ => rfl
theorem FixedBits.advanceExit1DR0 : FixedBits.Statement .advanceExit1DR0 := fun _ => rfl
theorem FixedBits.advanceExit1DR1 : FixedBits.Statement .advanceExit1DR1 := fun _ => rfl
theorem FixedBits.advancePauseDR0 : FixedBits.Statement .advancePauseDR0 := fun _ => rfl
theorem FixedBits.advancePauseDR1 : FixedBits.Statement .advancePauseDR1 := fun _ => rfl
theorem FixedBits.advanceExit2DR0 : FixedBits.Statement .advanceExit2DR0 := fun _ => rfl
theorem FixedBits.advanceExit2DR1 : FixedBits.Statement .advanceExit2DR1 := fun _ => rfl
theorem FixedBits.advanceUpdateDR0 : FixedBits.Statement .advanceUpdateDR0 := fun _ => rfl
theorem FixedBits.advanceUpdateDR1 : FixedBits.Statement .advanceUpdateDR1 := fun _ => rfl
theorem FixedBits.reset0 : FixedBits.Statement .reset0 := fun _ => trivial
theorem FixedBits.reset1 : FixedBits.Statement .reset1 := fun _ => trivial
theorem FixedBits.reset2 : FixedBits.Statement .reset2 := fun _ => trivial
theorem FixedBits.resetOther (value : Nat) : FixedBits.Statement (.resetOther value) := fun _ => trivial
theorem FixedBits.busReset : FixedBits.Statement .busReset := fun _ => trivial
theorem FixedBits.eepromWrite (subCode : Nat) (payload : List Byte) : FixedBits.Statement (.eepromWrite subCode payload) := fun _ => trivial
theorem FixedBits.eepromErase (subCode : Nat) (payload : List Byte) : FixedBits.Statement (.eepromErase subCode payload) := fun _ => trivial
theorem FixedBits.eepromRead (subCode : Nat) : FixedBits.Statement (.eepromRead subCode) := fun _ => trivial
theorem FixedBits.modemStatusQuery : FixedBits.Statement .modemStatusQuery := fun _ => trivial
theorem FixedBits.latencyTimerQuery : FixedBits.Statement .latencyTimerQuery := fun _ => trivial
theorem FixedBits.vendorOther (request : Nat) (payload : List Byte) : FixedBits.Statement (.vendorOther request payload) := fun _ => trivial

end Sys2Proof.Laws
end

