-- ==== Sys2Proof/Laws/Step.lean ====
section
/-! SUPPORT. Everything a step can do, said once, and how runs unfold. -/

namespace Sys2Proof.Machine

/-- The byte a batch takes next is a byte form. -/
theorem isByte_decodeByte (p : Params) (sel : Selector) (b : Byte) : isByte (decode p sel (.byte b)) = true := by
  simp only [decode, decodeByte, decodeCommand]
  split
  · split <;> rfl
  · split <;> rfl

theorem isByte_of_nextByte {s : State} {i : Instr} (h : s.nextByte = some i) : isByte i = true := by
  unfold State.nextByte at h
  split at h
  · simp at h
  · split at h
    · simp at h
    · cases h; exact isByte_decodeByte _ _ _

/-- A byte is taken only where there is one and there is room for a response (44_batch_processing.md R200). -/
theorem nextByte_some {s : State} {i : Instr} (h : s.nextByte = some i) :
    ∃ b rest, s.inbound = b :: rest ∧ s.outFree ≠ 0 ∧ i = decode s.params s.selector (.byte b) := by
  unfold State.nextByte at h
  split at h
  · simp at h
  · rename_i b rest hb
    split at h
    · simp at h
    · rename_i ho; cases h; exact ⟨b, rest, hb, ho, rfl⟩

theorem nextByte_none {s : State} (h : s.nextByte = none) : s.inbound = [] ∨ s.outFree = 0 := by
  unfold State.nextByte at h
  split at h
  · left; assumption
  · split at h
    · right; assumption
    · simp at h

/-- No call hands a stream byte to the block. -/
theorem isByte_callInstr {s : State} {c : Call} {i : Instr} (h : c.instr s = some i) : isByte i = false := by
  cases c <;> simp only [Call.instr, reduceCtorEq, Option.some.injEq] at h
  case control r =>
    subst h
    match r with
    | .reset 0 | .reset 1 | .reset 2 | .reset (_ + 3) => rfl
    | .eepromWrite _ _ | .eepromErase _ _ | .eepromRead _ | .modemStatusQuery | .latencyTimerQuery | .other _ _ => rfl
  case busReset => subst h; rfl
  case lookup w =>
    subst h
    simp only [decode, decodePattern]
    cases TapCtl.ofCode (w.extractLsb' 1 4) <;> cases w.getLsbD 0 <;> rfl

theorem phase_cases (s : State) : s.phase = .idle ∨ ∃ consumed after, s.phase = .batch consumed after := by
  cases s.phase with
  | idle => exact .inl rfl
  | batch consumed after => exact .inr ⟨consumed, after, rfl⟩

theorem agenda_cases (s : State) : s.agenda = [] ∨ ∃ c rest, s.agenda = c :: rest := by
  cases s.agenda with
  | nil => exact .inl rfl
  | cons c rest => exact .inr ⟨c, rest, rfl⟩

theorem step_batch {s : State} {consumed : Nat} {after : Option WriteCall} (hp : s.phase = .batch consumed after) :
    step s = batchTurn consumed after s := by rw [step, hp]

theorem step_idle {s : State} (hp : s.phase = .idle) : step s = callerTurn s := by rw [step, hp]

theorem callerTurn_forces {s : State} (h : s.resetOwed = true) : callerTurn s = .next s.fullReset := by
  rw [callerTurn, if_pos h]

theorem callerTurn_nil {s : State} (h : s.resetOwed = false) (ha : s.agenda = []) :
    callerTurn s = .next (beginBatch none s) := by
  rw [callerTurn, if_neg (by simp [h]), ha]

theorem callerTurn_cons {s : State} {c : Call} {rest : List Call} (h : s.resetOwed = false)
    (ha : s.agenda = c :: rest) : callerTurn s = perform c { s with agenda := rest } := by
  rw [callerTurn, if_neg (by simp [h]), ha]

/-! ## Calling `process` (44_batch_processing.md R200, R201, R204) -/

theorem beginBatch_running {s : State} (h : s.tap ≠ .fault) (after : Option WriteCall) :
    beginBatch after s = { s with phase := .batch 0 after } := if_neg h

theorem beginBatch_faulted {s : State} (h : s.tap = .fault) (after : Option WriteCall) :
    beginBatch after s = s.returnPinFault := if_pos h

theorem endBatch_eq (consumed : Nat) (after : Option WriteCall) (s : State) :
    ∃ agenda, endBatch consumed after s =
      { s with phase := .idle, agenda := agenda, reports := s.reports ++ [.done consumed] } := by
  cases after with
  | none => exact ⟨s.agenda, rfl⟩
  | some w => exact ⟨.write w :: s.agenda, rfl⟩

/-- The cases of a step: a byte of a batch, the end of a batch, the reset the caller owes, a call of `process` with
nothing listed, a call that hands an instruction over, or one that does not. -/
theorem step_cases (s : State) :
    (∃ consumed after i, s.phase = .batch consumed after ∧ s.nextByte = some i ∧ step s = exec i s) ∨
    (∃ consumed after, s.phase = .batch consumed after ∧ s.nextByte = none ∧
      step s = .next (endBatch consumed after s)) ∨
    (s.phase = .idle ∧ s.resetOwed = true ∧ step s = .next s.fullReset) ∨
    (s.phase = .idle ∧ s.resetOwed = false ∧ s.agenda = [] ∧ step s = .next (beginBatch none s)) ∨
    (∃ c rest i, s.phase = .idle ∧ s.resetOwed = false ∧ s.agenda = c :: rest ∧
      c.instr { s with agenda := rest } = some i ∧ step s = exec i { s with agenda := rest }) ∨
    ∃ c rest, s.phase = .idle ∧ s.resetOwed = false ∧ s.agenda = c :: rest ∧
      c.instr { s with agenda := rest } = none ∧ step s = .next (c.effect { s with agenda := rest }) := by
  rcases phase_cases s with hp | ⟨consumed, after, hp⟩
  · rw [step_idle hp]
    rcases Bool.eq_false_or_eq_true s.resetOwed with hf | hf
    · exact .inr (.inr (.inl ⟨hp, hf, callerTurn_forces hf⟩))
    · rcases agenda_cases s with ha | ⟨c, rest, ha⟩
      · exact .inr (.inr (.inr (.inl ⟨hp, hf, ha, callerTurn_nil hf ha⟩)))
      · rw [callerTurn_cons hf ha, perform]
        cases hi : c.instr { s with agenda := rest } with
        | none => exact .inr (.inr (.inr (.inr (.inr ⟨c, rest, hp, hf, ha, hi, rfl⟩))))
        | some i => exact .inr (.inr (.inr (.inr (.inl ⟨c, rest, i, hp, hf, ha, hi, rfl⟩))))
  · rw [step_batch hp, batchTurn]
    cases hn : s.nextByte with
    | none => exact .inr (.inl ⟨consumed, after, hp, rfl, rfl⟩)
    | some i => exact .inl ⟨consumed, after, i, hp, rfl, rfl⟩

theorem run_succ {s t : State} (h : step s = .next t) (k : Nat) :
    Host.Core.run core (k + 1) s = Host.Core.run core k t := by
  have h' : core.step s = .next t := h
  simp only [Host.Core.run, h']

end Sys2Proof.Machine
end

