-- ==== Sys2Proof/Tests/Slice0.lean ====
section
/-! SUPPORT. Tests. The expected values are those of spec/95_test_vectors.md (V1 to V18) and words written out from the
encodings of spec/30_encoding.md; the witnesses at the end show for each statement a state and operands that meet its
hypotheses. -/

namespace Sys2Proof.Tests

open Sys2Proof Sys2Proof.Machine

/-! ## The bench -/

/-- The conventions of 95_test_vectors.md: default bit numbers, `MARKER_MASK = 0x02`; the status bytes are arbitrary. -/
def benchParams : Params :=
  { inCap := 64, pktInMax := 64, tckBit := 0, tmsBit := 1, tdiBit := 4, tdoRespBit := 0, markerIndex := 0
    modemStatus0 := 0x31, modemStatus1 := 0x60 }

/-- A state of the block with the answers its pin operations will get. -/
def bench (c : TapCtl) (remaining : BitVec 6) (register : Byte) (read latched : Bool) (answers : List PinAnswer) :
    State :=
  { State.reset with
    params := benchParams, tap := .running c, shiftRemaining := remaining, shiftRegister := register
    readEnabled := read, clockLatched := latched, pins := { tdi := true, tms := false, tck := true }
    pinAnswers := answers, framerState := .idle }

/-- The same inside a batch, with a stream. -/
def inBench (s : State) (stream : List Byte) : State := { s with phase := .batch 0 none, inbound := stream }

/-- The same with a call to come. -/
def callBench (s : State) (c : Call) : State := { s with agenda := [c] }

/-- The state of the rows of V15. -/
def v15 : State := { bench .shiftDR 3 0x5A true true [] with inbound := [0x11, 0x22], outbound := [0x33] }

/-- `n` operations that succeed and find `TDO` at `l`. -/
def held (n : Nat) (l : Level) : List PinAnswer := List.replicate n (.done l)

/-- The answers of the 32 operations of a `DATAR` that samples `ts`. -/
def samples (ts : List Level) : List PinAnswer := ts.flatMap fun t => [.done false, .done t, .done false, .done false]

/-- The tuple of 95_test_vectors.md. -/
structure Regs where
  tap : TapState
  shiftRemaining : BitVec 6
  shiftRegister : Byte
  readEnabled : Bool
  clockLatched : Bool
  deriving DecidableEq, Repr

def regs (s : State) : Regs := ⟨s.tap, s.shiftRemaining, s.shiftRegister, s.readEnabled, s.clockLatched⟩

/-- What a test looks at in a next state; nothing where there is none. -/
def look {α : Type} (f : State → α) : Answer → Option α
  | .next t => some (f t)
  | .fault _ => none
  | .refused _ => none

/-! ## Well-formedness: an ill-formed term for each check -/

theorem test_wellFormed_refuses_zero : (Instr.resetOther 0).wellFormed = false := by decide
theorem test_wellFormed_refuses_one : (Instr.resetOther 1).wellFormed = false := by decide
theorem test_wellFormed_refuses_two : (Instr.resetOther 2).wellFormed = false := by decide
theorem test_wellFormed_accepts_three : (Instr.resetOther 3).wellFormed = true := by decide
theorem test_legal_accepts_bench : benchParams.legal = true := by decide
theorem test_legal_refuses_no_inbound : Params.legal { benchParams with inCap := 0 } = false := by decide
theorem test_legal_refuses_no_outbound : Params.legal { benchParams with pktInMax := 2 } = false := by decide
theorem test_legal_refuses_tck_is_tms : Params.legal { benchParams with tmsBit := 0 } = false := by decide
theorem test_legal_refuses_tck_is_tdi : Params.legal { benchParams with tdiBit := 0 } = false := by decide
theorem test_legal_refuses_tms_is_tdi : Params.legal { benchParams with tdiBit := 1 } = false := by decide

/-! ## Decoding: words written out from 30_encoding.md R83 to R86, R95, R96, and the bytes of V5 to V10, V14 -/

theorem test_decode_commands :
    (decodeTableWord 8 0x00, decodeTableWord 8 0x12, decodeTableWord 8 0x2F, decodeTableWord 8 0x3F) =
      (some (.bb false false false), some (.bb false true true), some (.bb true true false),
        some (.bb true true true)) ∧
    (decodeTableWord 8 0x40, decodeTableWord 8 0x41, decodeTableWord 8 0x7E) =
      (some (.bbr false false false), some (.bbr true false false), some (.bbr false true true)) ∧
    (decodeTableWord 8 0x80, decodeTableWord 8 0xBF) = (some (.shift 0), some (.shift 63)) ∧
    (decodeTableWord 8 0xC0, decodeTableWord 8 0xFF) = (some (.shiftr 0), some (.shiftr 63)) := by decide

/-- V14: the bytes of a burst are data whatever they look like. -/
theorem test_decode_data :
    decode benchParams { remaining := 2, read := false } (.byte 0xC1) = .data 0xC1 ∧
    decode benchParams { remaining := 1, read := false } (.byte 0x40) = .data 0x40 ∧
    decode benchParams { remaining := 63, read := true } (.byte 0x80) = .datar 0x80 ∧
    decode benchParams { remaining := 0, read := true } (.byte 0x00) = .bb false false false := by decide

/-- Bit positions are parameters (R7): the same byte on a machine with other positions. -/
theorem test_decode_other_positions :
    decode { benchParams with tckBit := 3, tmsBit := 2, tdiBit := 0 } Selector.command (.byte 0x09) =
      .bb true false true := by decide

theorem test_decode_patterns_dr :
    [0x00, 0x01, 0x02, 0x03, 0x12, 0x13, 0x14, 0x15, 0x16, 0x17, 0x18, 0x19, 0x1A, 0x1B, 0x1C, 0x1D, 0x1E, 0x1F].map
        (decodeTableWord 5) =
      [some .advanceReset0, some .advanceReset1, some .advanceRunIdle0, some .advanceRunIdle1,
        some .advanceSelectDR0, some .advanceSelectDR1, some .advanceCaptureDR0, some .advanceCaptureDR1,
        some .advanceShiftDR0, some .advanceShiftDR1, some .advanceExit1DR0, some .advanceExit1DR1,
        some .advancePauseDR0, some .advancePauseDR1, some .advanceExit2DR0, some .advanceExit2DR1,
        some .advanceUpdateDR0, some .advanceUpdateDR1] := by decide

theorem test_decode_patterns_ir :
    [0x04, 0x05, 0x06, 0x07, 0x08, 0x09, 0x0A, 0x0B, 0x0C, 0x0D, 0x0E, 0x0F, 0x10, 0x11].map (decodeTableWord 5) =
      [some .advanceSelectIR0, some .advanceSelectIR1, some .advanceCaptureIR0, some .advanceCaptureIR1,
        some .advanceShiftIR0, some .advanceShiftIR1, some .advanceExit1IR0, some .advanceExit1IR1,
        some .advancePauseIR0, some .advancePauseIR1, some .advanceExit2IR0, some .advanceExit2IR1,
        some .advanceUpdateIR0, some .advanceUpdateIR1] := by decide

theorem test_decode_requests :
    decodeRequest (.reset 0) = .reset0 ∧ decodeRequest (.reset 1) = .reset1 ∧ decodeRequest (.reset 2) = .reset2 ∧
    decodeRequest (.reset 3) = .resetOther 3 ∧ decodeRequest (.reset 65535) = .resetOther 65535 ∧
    decode benchParams Selector.command .busReset = .busReset ∧
    decodeRequest (.eepromWrite 1 [0xAA]) = .eepromWrite 1 [0xAA] ∧
    decodeRequest (.eepromErase 2 []) = .eepromErase 2 [] ∧ decodeRequest (.eepromRead 5) = .eepromRead 5 ∧
    decodeRequest .modemStatusQuery = .modemStatusQuery ∧ decodeRequest .latencyTimerQuery = .latencyTimerQuery ∧
    decodeRequest (.other 9 [0x01]) = .vendorOther 9 [0x01] := by decide

theorem test_decode_no_word : decodeTableWord 0 0 = none ∧ decodeTableWord 16 0x12 = none := by decide

/-- R93: the bytes of `BB tck=0 tms=1 tdi=1`, of `BBR`, of `SHIFT 5`, `SHIFTR 1`. -/
theorem test_encode_bytes :
    encode benchParams (.bb false true true) = .byte 0x12 ∧ encode benchParams (.bbr true false false) = .byte 0x41 ∧
    encode benchParams (.shift 5) = .byte 0x85 ∧ encode benchParams (.shiftr 1) = .byte 0xC1 := by decide

/-! ## Bytes, one step each -/

/-- V5, the row of byte 12. -/
theorem test_bb_releases :
    look (fun t => (regs t, t.trace, t.outbound, t.inbound))
        (step (inBench (bench .shiftDR 0 0 false true (held 3 false)) [0x12])) =
      some (⟨.running .exit1DR, 0, 0, false, false⟩, [.set .tdi true, .set .tms true, .set .tck false], [], []) := by
  decide

/-- V13, first vector: the second drive fails. -/
theorem test_bb_second_drive_fails :
    look (fun t => (regs t, t.trace, t.inbound, t.reports, t.resetOwed))
        (step (inBench (bench .reset 0 0 false false [.done false, .failed false]) [0x01])) =
      some (⟨.fault, 0, 0, false, false⟩, [.set .tdi false, .failSet .tms false], [0x01], [.condition .pinFault],
        true) := by
  decide

/-- V6, the row of byte 52. -/
theorem test_bbr_responds :
    look (fun t => (regs t, t.trace, t.outbound, t.responses))
        (step (inBench (bench .shiftDR 0 0 false true (held 4 true)) [0x52])) =
      some (⟨.running .exit1DR, 0, 0, false, false⟩,
        [.set .tdi true, .set .tms true, .set .tck false, .read true], [0x03], [0x03]) := by
  decide

/-- V13, second vector: the sense fails after the detector ran. -/
theorem test_bbr_sense_fails :
    look (fun t => (regs t, t.trace, t.outbound, t.inbound))
        (step (inBench (bench .runIdle 0 0 false true (held 3 false ++ [.failed false])) [0x42])) =
      some (⟨.fault, 0, 0, false, false⟩,
        [.set .tdi false, .set .tms true, .set .tck false, .failRead], [], [0x42]) := by
  decide

/-- V7, the row of byte 85. -/
theorem test_shift_loads_count :
    look (fun t => (regs t, t.trace, t.outbound)) (step (inBench (bench .reset 0 0 true false []) [0x85])) =
      some (⟨.running .reset, 5, 0, false, false⟩, [], []) := by
  decide

/-- V7, the row of byte 0xC0. -/
theorem test_shiftr_zero_count :
    look (fun t => (regs t, t.trace, t.outbound)) (step (inBench (bench .reset 0 0 false false []) [0xC0])) =
      some (⟨.running .reset, 0, 0, true, false⟩, [], []) := by
  decide

/-- V9, third vector: the latch is cleared and `tap` is not moved. -/
theorem test_data_clears_latch :
    look (fun t => (regs t, t.trace.length, t.outbound, t.inbound))
        (step (inBench (bench .shiftDR 1 0x77 false true (held 24 false)) [0xFF])) =
      some (⟨.running .shiftDR, 0, 0, false, false⟩, 24, [], []) := by
  decide

/-- V9, second vector: the levels of `TDI`, in order. -/
theorem test_data_bit_order :
    look (fun t => t.trace.filter fun e => e == .set .tdi true || e == .set .tdi false)
        (step (inBench (bench .shiftDR 1 0 false false (held 24 false)) [0xA5])) =
      some [.set .tdi true, .set .tdi false, .set .tdi true, .set .tdi false, .set .tdi false, .set .tdi true,
        .set .tdi false, .set .tdi true] := by
  decide

/-- V10, first row. -/
theorem test_datar_samples :
    look (fun t => (regs t, t.trace.length, t.outbound))
        (step (inBench (bench .reset 1 0 true false
          (samples [true, true, false, false, true, false, false, false])) [0xA5])) =
      some (⟨.running .reset, 0, 0x13, true, false⟩, 32, [0x13]) := by
  decide

/-- V10, fourth row. -/
theorem test_datar_in_burst :
    look (fun t => (regs t, t.outbound))
        (step (inBench (bench .shiftDR 2 0 true false
          (samples [true, false, true, true, false, false, true, false])) [0xA5])) =
      some (⟨.running .shiftDR, 1, 0x4D, true, false⟩, [0x4D]) := by
  decide

/-! ## The 32 rows of the TAP table (V1) -/

/-- What the lookups of a list of rows report. -/
def lookups (is : List Instr) : List (Option (List Report)) :=
  is.map fun i => look (fun t => t.reports) (exec i v15)

theorem test_advance_reset_runIdle :
    lookups [.advanceReset0, .advanceReset1, .advanceRunIdle0, .advanceRunIdle1] =
      [some [.lookup .runIdle], some [.lookup .reset], some [.lookup .runIdle], some [.lookup .selectDR]] := by decide

theorem test_advance_ir :
    lookups [.advanceSelectIR0, .advanceSelectIR1, .advanceCaptureIR0, .advanceCaptureIR1, .advanceShiftIR0,
        .advanceShiftIR1, .advanceExit1IR0, .advanceExit1IR1, .advancePauseIR0, .advancePauseIR1, .advanceExit2IR0,
        .advanceExit2IR1, .advanceUpdateIR0, .advanceUpdateIR1] =
      [some [.lookup .captureIR], some [.lookup .reset], some [.lookup .shiftIR], some [.lookup .exit1IR],
        some [.lookup .shiftIR], some [.lookup .exit1IR], some [.lookup .pauseIR], some [.lookup .updateIR],
        some [.lookup .pauseIR], some [.lookup .exit2IR], some [.lookup .shiftIR], some [.lookup .updateIR],
        some [.lookup .runIdle], some [.lookup .selectDR]] := by decide

theorem test_advance_dr :
    lookups [.advanceSelectDR0, .advanceSelectDR1, .advanceCaptureDR0, .advanceCaptureDR1, .advanceShiftDR0,
        .advanceShiftDR1, .advanceExit1DR0, .advanceExit1DR1, .advancePauseDR0, .advancePauseDR1, .advanceExit2DR0,
        .advanceExit2DR1, .advanceUpdateDR0, .advanceUpdateDR1] =
      [some [.lookup .captureDR], some [.lookup .selectIR], some [.lookup .shiftDR], some [.lookup .exit1DR],
        some [.lookup .shiftDR], some [.lookup .exit1DR], some [.lookup .pauseDR], some [.lookup .updateDR],
        some [.lookup .pauseDR], some [.lookup .exit2DR], some [.lookup .shiftDR], some [.lookup .updateDR],
        some [.lookup .runIdle], some [.lookup .selectDR]] := by decide

/-- A lookup moves neither `tap` nor anything else. -/
theorem test_advance_is_pure :
    look (fun t => { t with reports := [] }) (step (callBench v15 (.lookup 0x17))) = some v15 := by rfl

/-! ## Control requests (V15, V17), one step each -/

/-- The columns of V15. -/
structure Row where
  port : Regs
  inbound : List Byte
  outbound : List Byte
  framer : FramerState
  pins : Pins
  answers : List Report
  deriving DecidableEq, Repr

def controlled (t : State) : Row := ⟨regs t, t.inbound, t.outbound, t.framerState, t.pins, t.reports⟩

theorem test_reset0 :
    look controlled (step (callBench v15 (.control (.reset 0)))) =
      some ⟨⟨.running .reset, 0, 0, false, false⟩, [], [], .justReset, v15.pins, [.accepted]⟩ := by decide

theorem test_reset1 :
    look controlled (step (callBench v15 (.control (.reset 1)))) =
      some ⟨regs v15, [], [0x33], .idle, v15.pins, [.accepted]⟩ := by decide

theorem test_reset2 :
    look controlled (step (callBench v15 (.control (.reset 2)))) =
      some ⟨regs v15, [0x11, 0x22], [], .idle, v15.pins, [.accepted]⟩ := by decide

theorem test_resetOther :
    look controlled (step (callBench v15 (.control (.reset 65535)))) =
      some ⟨regs v15, [0x11, 0x22], [0x33], .idle, v15.pins, [.accepted]⟩ := by decide

theorem test_busReset :
    look controlled (step (callBench v15 .busReset)) =
      some ⟨⟨.running .reset, 0, 0, false, false⟩, [], [], .justReset, v15.pins, []⟩ := by decide

theorem test_eepromWrite :
    look controlled (step (callBench v15 (.control (.eepromWrite 7 [0xAA, 0x55])))) =
      some ⟨regs v15, [0x11, 0x22], [0x33], .idle, v15.pins, [.rejected]⟩ := by decide

theorem test_eepromErase :
    look controlled (step (callBench v15 (.control (.eepromErase 0 [])))) =
      some ⟨regs v15, [0x11, 0x22], [0x33], .idle, v15.pins, [.rejected]⟩ := by decide

/-- The canned values are not in the source, so only the block is looked at. -/
theorem test_queries_leave_the_block :
    [ControlRequest.eepromRead 4, .modemStatusQuery, .latencyTimerQuery].map
        (fun r => look (fun t => (regs t, t.inbound, t.outbound, t.framerState)) (step (callBench v15 (.control r)))) =
      List.replicate 3 (some (regs v15, [0x11, 0x22], [0x33], .idle)) := by decide

theorem test_vendorOther :
    look controlled (step (callBench v15 (.control (.other 3 [0x01])))) =
      some ⟨regs v15, [0x11, 0x22], [0x33], .idle, v15.pins,
        [.condition .unrecognizedVendorRequest, .acceptedEmpty]⟩ := by decide

/-! ## The batch loop (V12) and the framer's write (V18) -/

/-- V12: a `BB`, which pushes nothing, is not taken either while there is no room. -/
theorem test_batch_stops_when_full :
    look (fun t => (t.inbound, t.trace, t.phase, t.reports))
        (step { inBench (bench .reset 0 0 false false []) [0x00] with outbound := List.replicate 62 0 }) =
      some ([0x00], [], .idle, [.done 0]) := by decide

/-- V12: `process` on a faulted block, by a caller that has not noted its debt. -/
theorem test_process_faulted :
    look (fun t => (t.tap, t.inbound, t.trace, t.reports))
        (step { callBench (bench .reset 0 0 false false []) .process with
          tap := .fault, inbound := [0x00] }) =
      some (.fault, [0x00], [], [.condition .pinFault]) := by decide

/-- 70_reset_and_hazards.md R300 (d): after a `FramingFault` the full reset comes before the listed call, which stays
listed. -/
theorem test_owed_reset_comes_first :
    look (fun t => (t.resetOwed, t.phase, t.inbound, t.agenda))
        (step { callBench (bench .reset 0 0 false false []) .process with inbound := [0x01], resetOwed := true }) =
      some (false, .idle, [], [.process]) := by decide

/-- A write on a framer in state `f` whose outbound FIFO is `out`. -/
def writeBench (f : FramerState) (out : List Byte) (heartbeat : Bool) (accepts : Nat) : State :=
  { callBench (bench .reset 0 0 false false []) (.write { heartbeat := heartbeat, accepts := accepts }) with
    framerState := f, outbound := out }

def written (t : State) : List (List Byte) × List Byte × FramerState := (t.wire, t.outbound, t.framerState)

/-- V18, rows 1, 2 and 5. -/
theorem test_write_sends :
    look written (step (writeBench .justReset [] false 64)) = some ([[0x31, 0x60]], [], .idle) ∧
    look written (step (writeBench .idle [] false 64)) = some ([], [], .idle) ∧
    look written (step (writeBench .idle [0x03, 0x5A] false 3)) = some ([[0x31, 0x60, 0x03]], [0x5A], .idle) := by
  decide

/-- V18, rows 6 and 8. -/
theorem test_write_short :
    look (fun t => (t.wire, t.reports, t.resetOwed)) (step (writeBench .idle [0x03, 0x5A] false 1)) =
      some ([[0x31]], [.condition .framingFault], true) ∧
    look (fun t => (written t, t.reports)) (step (writeBench .justReset [] false 0)) =
      some (([], [], .justReset), [.condition .transientWouldBlock]) := by
  decide

/-- A read that is longer than the free space. -/
theorem test_read_takes_what_fits :
    look (fun t => (t.inLen, t.reports))
        (step { callBench (bench .reset 0 0 false false []) (.read [0x01, 0x02, 0x03]) with
          inbound := List.replicate 62 0 }) = some (64, [.took 2]) := by decide

/-! ## Reset and the fetch of a word -/

theorem test_withFetchWord_byte :
    (State.withFetchWord State.reset 8 0x85).inbound = [0x85] ∧
      look (fun t => t.shiftRemaining) (step (State.withFetchWord State.reset 8 0x85)) = some 5 := by decide

theorem test_withFetchWord_pattern :
    look (fun t => t.reports) (step (State.withFetchWord State.reset 5 0x17)) = some [.lookup .exit1DR] := by decide

/-! ## Witnesses: for each statement with hypotheses, operands and a state that meet them together -/

/-- A block in a batch whose next `n` pin operations succeed, and one whose operation `k` is the first to fail. -/
def ready (n : Nat) : State := inBench (bench .runIdle 0 0 false true (held n true)) []
def broken (k : Nat) : State := inBench (bench .runIdle 0 0 false true (held k true ++ [.failed true])) []

/-- A block that a failed operation has left in `Fault`, with a call to come; `unowed` where the caller has not noted
that it owes a reset. -/
def faulted (c : Call) : State := { callBench (bench .reset 0 0 false false []) c with tap := .fault, resetOwed := true }

def unowed (c : Call) : State := { faulted c with resetOwed := false }

theorem witness_DecodeOfEncodedInstr :
    benchParams.legal = true ∧ (Instr.bb true false true).wellFormed = true ∧
    (Instr.bb true false true).readUnder Selector.command = true ∧ (Instr.resetOther 3).wellFormed = true ∧
    (Instr.data 0xFF).readUnder { remaining := 1, read := false } = true ∧
    (Instr.datar 0x00).readUnder { remaining := 63, read := true } = true := by decide

theorem witness_EncodeOfDecodedByte :
    (1 : BitVec 6) ≠ 0 ∧ (0x80 : Byte).getLsbD 7 = true ∧ Selector.command.remaining = 0 ∧
    (0x7F : Byte).getLsbD 7 = false := by decide

theorem witness_ByteFormBySelector :
    Selector.command.remaining = 0 ∧
    ((0x3F : Byte).getLsbD 7, (0x3F : Byte).getLsbD 6) = (false, false) ∧
    ((0x40 : Byte).getLsbD 7, (0x40 : Byte).getLsbD 6) = (false, true) ∧
    ((0xBF : Byte).getLsbD 7, (0xBF : Byte).getLsbD 6) = (true, false) ∧
    ((0xC0 : Byte).getLsbD 7, (0xC0 : Byte).getLsbD 6) = (true, true) ∧ (63 : BitVec 6) ≠ 0 := by decide

theorem witness_LookupsAndReleasesShareOneTable :
    (ready 0).tap = .running .runIdle ∧ (ready 0).clockLatched = true := by decide

theorem witness_TapTableProperties : 5 ≤ 5 ∧ TapCtl.exit2DR ∈ [TapCtl.captureDR, .shiftDR, .exit1DR, .pauseDR, .exit2DR] := by
  decide

theorem witness_OtherResetValuesDoNothing : 3 ≤ 3 ∧ 3 ≤ 65535 := by decide

theorem witness_ReleaseDetector :
    (ready 4).tap = .running .runIdle ∧ (ready 3).allDone 3 = true ∧ (ready 4).allDone 4 = true ∧
    (broken 3).failsAt 3 = true ∧ (broken 0).failsAt 0 = true ∧ (broken 2).failsAt 2 = true := by decide

/-- A `BB` and a `BBR`: seven operations. -/
theorem witness_TransitionsAreTheReleases :
    (ready 7).tap = .running .runIdle ∧
    (ready 7).allDone (([⟨false, true, true, false⟩, ⟨true, false, true, false⟩] : List BitBangCommand).map
      BitBangCommand.pinOps).sum = true := by decide

theorem witness_BitBangEffect : (ready 3).allDone 3 = true := by decide
theorem witness_BitBangReadEffect : (ready 4).allDone 4 = true := by decide
theorem witness_DataByteEffect : (ready 24).allDone 24 = true := by decide
theorem witness_DataByteReadEffect : (ready 32).allDone 32 = true := by decide

/-- With the input held high the byte 0xFF is its own echo. -/
theorem witness_BurstBitOrder :
    (ready 24).allDone 24 = true ∧ (ready 32).allDone 32 = true ∧
    ∀ i < 8, (ready 32).tdoAt (4 * i + 1) = (0xFF : Byte).getLsbD i := by decide

theorem witness_HeldInputGivesOneResponse :
    let s := inBench (bench .reset 0 0 false false (held 32 false)) [0xC1, 0xA5]
    s.phase = .batch 0 none ∧ s.shiftRemaining = 0 ∧ s.inbound = [0xC1, 0xA5] ∧ s.outFree ≠ 0 ∧
      s.allDone 32 = true ∧ ∀ i < 8, s.tdoAt (4 * i + 1) = false := by decide

theorem witness_FirstFailureEndsTheByte :
    ((broken 0).failsAt 0 = true ∧ (bitBangEvents true true true)[0]? = some (.set .tdi true)) ∧
    ((broken 3).failsAt 3 = true ∧ (bitBangEvents true true true ++ [.read false])[3]? = some (.read false)) ∧
    ((broken 23).failsAt 23 = true ∧ (dataEvents 0xA5)[23]? = some (.set .tck false)) ∧
    (broken 29).failsAt 29 = true ∧
      (datarEvents 0xA5 fun j => (broken 29).tdoAt (4 * j + 1))[29]? = some (.read false) := by decide

theorem witness_StateAfterPinFault :
    ((broken 2).failsAt 2 = true ∧ (bitBangEvents true true true)[2]? = some (.set .tck true)) ∧
    (broken 3).failsAt 3 = true ∧
    ((broken 0).failsAt 0 = true ∧ (dataEvents 0x01)[0]? = some (.set .tdi true)) ∧
    (broken 31).failsAt 31 = true ∧
      (datarEvents 0x01 fun i => (broken 31).tdoAt (4 * i + 1))[31]? = some (.set .tck false) := by decide

theorem witness_BitBangFrame :
    look (fun t => t.tap) (exec (.bb false true true) (ready 3)) = some (.running .selectDR) ∧
    look (fun t => t.tap) (exec (.bbr false true true) (broken 3)) = some .fault ∧ (broken 3).tap ≠ .fault := by
  decide

theorem witness_DataByteFrame :
    look (fun t => t.tap) (exec (.data 0x0F) (ready 24)) = some (.running .runIdle) ∧
    look (fun t => t.tap) (exec (.datar 0x0F) (broken 1)) = some .fault ∧ (broken 1).tap ≠ .fault := by decide

theorem inv_ready (n : Nat) : (ready n).Inv :=
  ⟨test_legal_accepts_bench, Nat.zero_le _, Nat.zero_le _, (fun _ => ⟨(fun h => nomatch h), rfl⟩), (fun h => nomatch h)⟩

theorem inv_faulted (c : Call) : (faulted c).Inv :=
  ⟨test_legal_accepts_bench, Nat.zero_le _, Nat.zero_le _, (fun h => absurd rfl h), (fun _ => rfl)⟩

/-- For `StepKeepsInv`, `RecordsOnlyGrow`, `InboundWriters`, `OutboundWriters`, `ModeFlagWriters`, `PinsFollowTheTrace`:
a sound state and its next. -/
theorem witness_step : (ready 0).Inv ∧ step (ready 0) = .next (endBatch 0 none (ready 0)) := ⟨inv_ready 0, rfl⟩

theorem inv_inBench (c : TapCtl) (answers : List PinAnswer) (b : Byte) :
    (inBench (bench c 0 0 false true answers) [b]).Inv :=
  ⟨test_legal_accepts_bench, by simp [inBench, State.inLen, bench, benchParams], Nat.zero_le _,
    (fun _ => ⟨(fun h => nomatch h), rfl⟩), (fun h => nomatch h)⟩

/-- The three writers of `tap`, each at work. -/
theorem witness_TapWriters :
    (inBench (bench .runIdle 0 0 false true (held 3 true)) [0x02]).Inv ∧
    look (fun t => t.tap) (step (inBench (bench .runIdle 0 0 false true (held 3 true)) [0x02])) =
      some (.running .selectDR) ∧
    look (fun t => t.tap) (step (inBench (bench .runIdle 0 0 false true [.failed false]) [0x02])) = some .fault ∧
    (faulted .forcedReset).Inv ∧ look (fun t => t.tap) (step (faulted .forcedReset)) = some (.running .reset) :=
  ⟨inv_inBench _ _ _, by decide, by decide, inv_faulted _, by decide⟩

/-- The three writers of `shift_remaining`. -/
theorem witness_ShiftRemainingWriters :
    look (fun t => t.shiftRemaining) (step (inBench (bench .reset 0 0 false false []) [0xBF])) = some 63 ∧
    look (fun t => t.shiftRemaining) (step (inBench (bench .reset 63 0 false false (held 24 true)) [0x00])) =
      some 62 ∧
    look (fun t => t.shiftRemaining) (step (callBench v15 (.control (.reset 0)))) = some 0 := by decide

theorem witness_FramerTransitions :
    (callBench v15 .busReset).resetsNext ∧
    (writeBench .justReset [] false 2).phase = .idle ∧ (writeBench .justReset [] false 2).resetOwed = false ∧
    (writeBench .justReset [] false 2).mustSend false = true ∧
    2 ≤ (writeBench .justReset [] false 2).accepted { heartbeat := false, accepts := 2 } :=
  ⟨⟨rfl, .inr ⟨[], .inl rfl⟩⟩, rfl, rfl, by decide, by decide⟩

theorem witness_StepRunsDecodedInstr :
    (inBench (bench .reset 0 0 false false []) [0x85]).inbound = [0x85] ∧
    (inBench (bench .reset 0 0 false false []) [0x85]).outFree ≠ 0 ∧
    (callBench v15 (.control (.reset 2))).phase = .idle ∧ (callBench v15 (.control (.reset 2))).resetOwed = false ∧
    (callBench v15 .busReset).agenda = [.busReset] ∧
    (callBench v15 (.lookup 0x1F)).agenda = [.lookup 0x1F] := by decide

theorem witness_BatchStopsWithoutByteOrRoom :
    (ready 0).phase = .batch 0 none ∧ (ready 0).inbound = [] ∧
    State.outFree { ready 0 with outbound := List.replicate 62 0 } = 0 ∧
    State.phase { ready 0 with phase := .batch 3 (some { heartbeat := true, accepts := 64 }) } =
      .batch 3 (some { heartbeat := true, accepts := 64 }) := by decide

theorem not_resetsNext_lookup (w : BitVec 5) : ¬ (unowed (.lookup w)).resetsNext := by
  rintro ⟨-, h | ⟨rest, h | h | h | ⟨levels, h⟩⟩⟩ <;> cases h

theorem witness_FaultedBlockRefusesWork :
    ((unowed .process).tap = .fault ∧ (unowed .process).phase = .idle ∧ (unowed .process).resetOwed = false ∧
      (unowed .process).agenda = [.process]) ∧
    (unowed (.lookup 0)).tap = .fault ∧ (unowed (.lookup 0)).phase = .idle ∧ ¬ (unowed (.lookup 0)).resetsNext ∧
      look (fun t => t.tap) (step (unowed (.lookup 0))) = some .fault :=
  ⟨⟨rfl, rfl, rfl, rfl⟩, rfl, rfl, not_resetsNext_lookup 0, by decide⟩

theorem witness_BatchEndsAndAccounts : (ready 0).tap ≠ .fault ∧ (ready 0).phase = .batch 0 none := by decide

/-- Two states with one block in batches of different callers. -/
theorem witness_BatchBoundariesLeaveNoTrace :
    SameBlock (ready 3) { ready 3 with phase := .batch 9 (some { heartbeat := false, accepts := 0 }), reports := [.skipped] } ∧
    (ready 3).inBatch ∧
    State.inBatch { ready 3 with phase := .batch 9 (some { heartbeat := false, accepts := 0 }), reports := [.skipped] } :=
  ⟨⟨rfl, rfl, rfl, rfl, rfl, rfl, rfl, rfl, rfl, rfl, rfl⟩, by simp [State.inBatch, ready, inBench],
    by simp [State.inBatch]⟩

theorem witness_TapIsABelief :
    SameButTap (ready 3) { ready 3 with tap := .running .pauseIR, clockLatched := false } :=
  ⟨rfl, by constructor <;> intro h <;> cases h⟩

theorem witness_TapResetFromEveryState :
    let s := inBench (bench .pauseDR 0 0 false false (held 30 false)) [3, 2, 3, 2, 3, 2, 3, 2, 3, 2, 0x40]
    s.params.legal = true ∧ s.phase = .batch 0 none ∧ s.tap = .running .pauseDR ∧ s.clockLatched = false ∧
      s.shiftRemaining = 0 ∧ s.outFree ≠ 0 ∧ s.allDone 30 = true ∧
      s.inbound = (List.replicate 5 [bitBangByte s.params false true true false,
        bitBangByte s.params false false true false]).flatten ++ [0x40] := by decide

theorem witness_EveryResetIsTheFullReset :
    (callBench v15 .forcedReset).phase = .idle ∧ (callBench v15 .forcedReset).resetOwed = false ∧
    (callBench v15 .forcedReset).agenda = [.forcedReset] ∧
    (callBench v15 (.bringUp v15.pins)).agenda = [.bringUp v15.pins] ∧
    look (fun t => t.tap) (exec .busReset v15) = some (.running .reset) ∧
    look (fun t => t.tap) (exec .reset0 v15) = some (.running .reset) := by decide

theorem witness_ResetIsIdempotent :
    ∃ t u, exec .reset0 v15 = .next t ∧ exec .reset0 t = .next u := ⟨_, _, rfl, rfl⟩

theorem witness_ResetValues : ∃ t, exec .busReset v15 = .next t := ⟨_, rfl⟩

theorem witness_ControlChannelFrame :
    isByte .reset1 = false ∧ look (fun t => t.inbound) (exec .reset1 v15) = some [] ∧
    isByte .advanceReset0 = false ∧ look (fun t => t.inbound) (exec .advanceReset0 v15) = some [0x11, 0x22] := by
  decide

theorem witness_WriteSendsWhenItMust :
    ((writeBench .idle [] false 64).phase = .idle ∧ (writeBench .idle [] false 64).resetOwed = false) ∧
    ((writeBench .idle [] false 64).outbound = [] ∧ (writeBench .idle [] false 64).framerState = .idle) ∧
    (writeBench .idle [0x03] false 2).outbound ≠ [] ∧ (writeBench .justReset [] false 2).framerState = .justReset := by
  decide

theorem witness_WriteOutcomes :
    (writeBench .idle [0x03, 0x5A] false 0).phase = .idle ∧ (writeBench .idle [0x03, 0x5A] false 0).resetOwed = false ∧
    (writeBench .idle [0x03, 0x5A] false 0).outbound ≠ [] ∧ (writeBench .idle [0x03, 0x5A] false 1).outbound ≠ [] ∧
    min 2 ((writeBench .idle [0x03, 0x5A] false 2).outbound.length + 2) = 0 + 2 ∧
    min 64 ((writeBench .idle [0x03, 0x5A] false 64).outbound.length + 2) = 2 + 2 := by decide

theorem witness_ReadOutcomes :
    (callBench v15 (.read [])).phase = .idle ∧ (callBench v15 (.read [])).resetOwed = false ∧
    (callBench v15 (.read [])).agenda = [.read []] ∧
    benchParams.inCap ≤ State.inLen { callBench v15 (.read [0x01]) with inbound := List.replicate 64 0 } ∧
    State.inLen { callBench v15 (.read [0x01]) with inbound := List.replicate 63 0 } < benchParams.inCap := by decide

/-- A batch of a poll cycle whose one byte fails. -/
def pollBench : State :=
  { inBench (bench .reset 0 0 false false [.failed true]) [0x00] with
    phase := .batch 0 (some { heartbeat := false, accepts := 0 }) }

theorem witness_PollCycle :
    (callBench v15 (.poll [] { heartbeat := false, accepts := 0 })).faultFree ∧
    (callBench v15 .process).faultFree ∧ State.faultFree v15 ∧ v15.agenda = [] ∧
    pollBench.tap ≠ .fault ∧ look (fun t => t.tap) (step pollBench) = some .fault :=
  ⟨⟨by decide, rfl⟩, ⟨by decide, rfl⟩, ⟨by decide, rfl⟩, rfl, by decide, by decide⟩

theorem witness_CallerForcesOwedReset :
    (faulted (.read [0x00])).phase = .idle ∧ (faulted (.read [0x00])).resetOwed = true := by decide

theorem witness_EncodeOfDecodedPatternOrRequest :
    Instr.advanceReset1.wellFormed = true ∧ encode benchParams .advanceReset1 = .pattern 1 ∧
    (Instr.resetOther 3).wellFormed = true ∧ encode benchParams (.resetOther 3) = .request (.reset 3) ∧
    encode benchParams .busReset = .busReset := by decide

end Sys2Proof.Tests
end

