-- ==== Sys2Proof/Proofs/Step.lean ====
section
/-! SUPPORT. What the caller's instructions and the calls do, and the two facts about every step that the statements of
10_state.md share: the parameters stay, and a step that resets is the full reset. -/

namespace Sys2Proof.Machine

/-! ## Instructions that come from a call -/

/-- Everything an instruction that is no stream byte can do: the full reset, one of the two purges, or nothing but its
answer (40_tap_advance.md R110, 45_control_and_framer.md R220 to R228). -/
theorem control_cases {i : Instr} (hi : isByte i = false) (s : State) : ∃ answers,
    ((i = .reset0 ∨ i = .busReset) ∧
      exec i s = .next { s.fullReset with reports := s.reports ++ answers }) ∨
    (i = .reset1 ∧ exec i s = .next { s with inbound := [], reports := s.reports ++ answers }) ∨
    (i = .reset2 ∧ exec i s = .next { s with outbound := [], reports := s.reports ++ answers }) ∨
    exec i s = .next { s with reports := s.reports ++ answers } := by
  cases i
  case bb | bbr | shift | shiftr | data | datar => simp [isByte] at hi
  case reset0 => exact ⟨[.accepted], .inl ⟨.inl rfl, rfl⟩⟩
  case busReset => exact ⟨[], .inl ⟨.inr rfl, by rw [List.append_nil]; rfl⟩⟩
  case reset1 => exact ⟨[.accepted], .inr (.inl ⟨rfl, rfl⟩)⟩
  case reset2 => exact ⟨[.accepted], .inr (.inr (.inl ⟨rfl, rfl⟩))⟩
  case vendorOther request payload =>
    refine ⟨[.condition .unrecognizedVendorRequest, .acceptedEmpty], .inr (.inr (.inr ?_))⟩
    simp [exec, execVendorOther, State.report]
  all_goals exact ⟨[_], .inr (.inr (.inr rfl))⟩

/-- The call an instruction came from can be read off its encoding: a lookup hands over a pattern of the TAP table, a
control request the instruction that is written as this request (30_encoding.md R95, R96). -/
theorem encode_callInstr {s : State} {c : Call} {i : Instr} (h : c.instr s = some i) (p : Params) :
    (∃ w, encode p i = .pattern w) ∨ (∃ r, c = .control r ∧ encode p i = .request r) ∨ c = .busReset ∧ i = .busReset := by
  cases c <;> simp only [Call.instr, reduceCtorEq, Option.some.injEq] at h
  case control r =>
    subst h
    refine .inr (.inl ⟨r, rfl, ?_⟩)
    match r with
    | .reset 0 | .reset 1 | .reset 2 | .reset (_ + 3) => rfl
    | .eepromWrite _ _ | .eepromErase _ _ | .eepromRead _ | .modemStatusQuery | .latencyTimerQuery | .other _ _ => rfl
  case busReset => exact .inr (.inr ⟨rfl, h.symm⟩)
  case lookup w =>
    subst h
    refine .inl ?_
    simp only [decode, decodePattern]
    cases TapCtl.ofCode (w.extractLsb' 1 4) <;> cases w.getLsbD 0 <;> exact ⟨_, rfl⟩

theorem call_of_instr_reset0 {s : State} {c : Call} (h : c.instr s = some .reset0) : c = .control (.reset 0) := by
  simpa [encode] using encode_callInstr h s.params

theorem call_of_instr_reset1 {s : State} {c : Call} (h : c.instr s = some .reset1) : c = .control (.reset 1) := by
  simpa [encode] using encode_callInstr h s.params

theorem call_of_instr_busReset {s : State} {c : Call} (h : c.instr s = some .busReset) : c = .busReset := by
  simpa [encode] using encode_callInstr h s.params

/-! ## The parameters (10_state.md R41) -/

theorem ByteDone.params {s t : State} {evs : List PinEvent} {rs : List Byte} (h : ByteDone s t evs rs) :
    t.params = s.params := by
  simpa using congrArg State.params h.eq

theorem ByteFailed.params {s t : State} {evs : List PinEvent} {e : PinEvent} (h : ByteFailed s t evs e) :
    t.params = s.params := by
  simpa using congrArg State.params h.eq

@[simp] theorem beginBatch_params (after : Option WriteCall) (s : State) :
    (beginBatch after s).params = s.params := by
  unfold beginBatch; split <;> rfl

@[simp] theorem endBatch_params (consumed : Nat) (after : Option WriteCall) (s : State) :
    (endBatch consumed after s).params = s.params := by
  cases after <;> rfl

@[simp] theorem framerRead_params (offered : List Byte) (s : State) : (framerRead offered s).params = s.params := by
  rcases framerRead_cases offered s with h | ⟨_, _, _, _, h⟩ <;> rw [h] <;> rfl

@[simp] theorem framerWrite_params (w : WriteCall) (s : State) : (framerWrite w s).params = s.params := by
  rcases framerWrite_cases w s with ⟨_, h⟩ | ⟨_, _, h⟩ | ⟨_, _, h⟩ | ⟨_, _, _, h⟩ <;> rw [h] <;> rfl

theorem exec_params {i : Instr} {s t : State} (h : exec i s = .next t) : t.params = s.params := by
  cases hi : isByte i with
  | true =>
    obtain ⟨u, hu, hb⟩ := byte_cases i hi s
    obtain rfl : u = t := by simpa [hu] using h
    rcases hb with ⟨_, _, hb⟩ | ⟨_, _, hb⟩
    · exact hb.params
    · exact hb.params
  | false =>
    obtain ⟨_, ⟨-, hu⟩ | ⟨-, hu⟩ | ⟨-, hu⟩ | hu⟩ := control_cases hi s <;> rw [hu] at h <;> cases h <;> rfl

@[simp] theorem callEffect_params (c : Call) (s : State) : (c.effect s).params = s.params := by
  cases c <;> simp [Call.effect]

/-- No step writes the parameters. -/
theorem step_params {s t : State} (h : step s = .next t) : t.params = s.params := by
  rcases step_cases s with ⟨_, _, _, -, -, hs⟩ | ⟨_, _, -, -, hs⟩ | ⟨-, -, hs⟩ | ⟨-, -, -, hs⟩ |
    ⟨_, _, _, -, -, -, -, hs⟩ | ⟨_, _, -, -, -, -, hs⟩ <;> rw [hs] at h
  · exact exec_params h
  · cases h; exact endBatch_params ..
  · cases h; rfl
  · cases h; exact beginBatch_params ..
  · rw [exec_params h]
  · cases h; exact callEffect_params ..

/-! ## Steps that reset (70_reset_and_hazards.md R301, R302) -/

/-- A step that is a full reset, whatever its source, leaves what `FullReset()` leaves; only the agenda, the pins (at
bring-up) and the answers given can differ. -/
theorem step_resetsNext {s t : State} (hr : s.resetsNext) (h : step s = .next t) :
    t = { s.fullReset with agenda := t.agenda, pins := t.pins, reports := t.reports } := by
  obtain ⟨hp, hr⟩ := hr
  rw [step_idle hp] at h
  cases hf : s.resetOwed with
  | true => rw [callerTurn_forces hf] at h; cases h; rfl
  | false =>
    obtain ⟨rest, ha | ha | ha | ⟨levels, ha⟩⟩ := hr.resolve_left (by simp [hf]) <;>
      rw [callerTurn_cons hf ha] at h <;> cases h <;> rfl

end Sys2Proof.Machine
end

