-- ==== Sys2Proof/Proofs/Inbound.lean ====
section
/-! The inbound FIFO: what each operation does to it, what each step does to it, and who writes it (10_state.md R31). -/

namespace Sys2Proof.Machine

/-- The step empties the inbound FIFO: a full reset, or `RESET(1)` (10_state.md R31). -/
def State.emptiesInbound (s : State) : Prop :=
  s.resetsNext ∨ (s.phase = .idle ∧ s.agenda.head? = some (.control (.reset 1)))

/-! ## The operations -/

theorem ByteDone.inbound {s t : State} {evs : List PinEvent} {rs : List Byte} (h : ByteDone s t evs rs) :
    t.inbound = s.inbound.tail := by
  simpa using congrArg State.inbound h.eq

theorem ByteFailed.inbound {s t : State} {evs : List PinEvent} {e : PinEvent} (h : ByteFailed s t evs e) :
    t.inbound = s.inbound := by
  simpa using congrArg State.inbound h.eq

@[simp] theorem beginBatch_inbound (after : Option WriteCall) (s : State) :
    (beginBatch after s).inbound = s.inbound := by
  unfold beginBatch; split <;> rfl

@[simp] theorem endBatch_inbound (consumed : Nat) (after : Option WriteCall) (s : State) :
    (endBatch consumed after s).inbound = s.inbound := by
  cases after <;> rfl

@[simp] theorem framerWrite_inbound (w : WriteCall) (s : State) : (framerWrite w s).inbound = s.inbound := by
  rcases framerWrite_cases w s with ⟨_, h⟩ | ⟨_, _, h⟩ | ⟨_, _, h⟩ | ⟨_, _, _, h⟩ <;> rw [h] <;> rfl

/-- An inbound read appends what fits of the offered bytes, which may be nothing (45_control_and_framer.md R230). -/
@[simp] theorem framerRead_inbound (offered : List Byte) (s : State) :
    (framerRead offered s).inbound = s.inbound ++ offered.take (s.params.inCap - s.inLen) := by
  unfold framerRead
  split
  · simp [Nat.sub_eq_zero_of_le ‹s.params.inCap ≤ s.inLen›]
  · split <;> simp [*]

/-! ## The instructions and the calls -/

/-- A byte of a batch takes the oldest byte out, or leaves it there when its handling fails (44_batch_processing.md
R206). -/
theorem exec_nextByte_inbound {s t : State} {i : Instr} (hn : s.nextByte = some i) (h : exec i s = .next t) :
    t.inbound = s.inbound ∨ ∃ b, s.inbound = b :: t.inbound := by
  obtain ⟨b, rest, hb, -, -⟩ := nextByte_some hn
  obtain ⟨u, hu, hd⟩ := byte_cases i (isByte_of_nextByte hn) s
  obtain rfl : u = t := by simpa [hu] using h
  rcases hd with ⟨_, _, hd⟩ | ⟨_, _, hd⟩
  · exact .inr ⟨b, by rw [hd.inbound, hb, List.tail_cons]⟩
  · exact .inl hd.inbound

/-- A control instruction leaves the inbound FIFO alone, or it is one of the three that empty it. -/
theorem exec_control_inbound {s t : State} {i : Instr} (hi : isByte i = false) (h : exec i s = .next t) :
    t.inbound = s.inbound ∨ t.inbound = [] ∧ (i = .reset0 ∨ i = .busReset ∨ i = .reset1) := by
  obtain ⟨_, ⟨hr, hu⟩ | ⟨hr, hu⟩ | ⟨-, hu⟩ | hu⟩ := control_cases hi s <;> rw [hu] at h <;> cases h
  · exact .inr ⟨rfl, hr.imp_right .inl⟩
  · exact .inr ⟨rfl, .inr (.inr hr)⟩
  · exact .inl rfl
  · exact .inl rfl

/-- Calls whose instruction is one of the three that empty the inbound FIFO. -/
theorem emptiesInbound_of_callInstr {s u : State} {c : Call} {rest : List Call} {i : Instr} (hp : s.phase = .idle)
    (ha : s.agenda = c :: rest) (hc : c.instr u = some i) (hi : i = .reset0 ∨ i = .busReset ∨ i = .reset1) :
    s.emptiesInbound := by
  rcases hi with rfl | rfl | rfl
  · obtain rfl := call_of_instr_reset0 hc
    exact .inl ⟨hp, .inr ⟨rest, .inr (.inr (.inl ha))⟩⟩
  · obtain rfl := call_of_instr_busReset hc
    exact .inl ⟨hp, .inr ⟨rest, .inl ha⟩⟩
  · obtain rfl := call_of_instr_reset1 hc
    exact .inr ⟨hp, by rw [ha, List.head?_cons]⟩

/-! ## The step -/

/-- Everything a step can do to the inbound FIFO. -/
theorem step_inbound_cases {s t : State} (h : step s = .next t) :
    t.inbound = s.inbound ∨
    (s.inBatch ∧ ∃ b, s.inbound = b :: t.inbound) ∨
    (s.phase = .idle ∧ ∃ offered, (s.agenda.head? = some (.read offered) ∨
        ∃ w, s.agenda.head? = some (.poll offered w)) ∧
      t.inbound = s.inbound ++ offered.take (s.params.inCap - s.inLen)) ∨
    (t.inbound = [] ∧ s.emptiesInbound) := by
  rcases step_cases s with ⟨_, _, i, hp, hn, hs⟩ | ⟨_, _, -, -, hs⟩ | ⟨hp, hf, hs⟩ | ⟨-, -, -, hs⟩ |
    ⟨c, rest, i, hp, -, ha, hc, hs⟩ | ⟨c, rest, hp, -, ha, -, hs⟩ <;> rw [hs] at h
  · exact (exec_nextByte_inbound hn h).imp_right fun hb => .inl ⟨by simp [State.inBatch, hp], hb⟩
  · cases h; exact .inl (endBatch_inbound ..)
  · cases h; exact .inr (.inr (.inr ⟨rfl, .inl ⟨hp, .inl hf⟩⟩))
  · cases h; exact .inl (beginBatch_inbound ..)
  · exact (exec_control_inbound (isByte_callInstr hc) h).imp_right fun ⟨he, hi⟩ =>
      .inr (.inr ⟨he, emptiesInbound_of_callInstr hp ha hc hi⟩)
  · cases h
    cases c with
    | process => exact .inl (beginBatch_inbound ..)
    | read offered =>
      exact .inr (.inr (.inl ⟨hp, offered, .inl (by rw [ha, List.head?_cons]), framerRead_inbound ..⟩))
    | write w => exact .inl (framerWrite_inbound ..)
    | poll offered w =>
      refine .inr (.inr (.inl ⟨hp, offered, .inr ⟨w, by rw [ha, List.head?_cons]⟩, ?_⟩))
      simp only [Call.effect, beginBatch_inbound, framerRead_inbound]; rfl
    | forcedReset => exact .inr (.inr (.inr ⟨rfl, .inl ⟨hp, .inr ⟨rest, .inr (.inl ha)⟩⟩⟩))
    | bringUp levels => exact .inr (.inr (.inr ⟨rfl, .inl ⟨hp, .inr ⟨rest, .inr (.inr (.inr ⟨levels, ha⟩))⟩⟩⟩))
    | control _ | busReset | lookup _ => exact .inl rfl

/-- A full reset and `RESET(1)` do empty it. -/
theorem step_emptiesInbound {s t : State} (he : s.emptiesInbound) (h : step s = .next t) : t.inbound = [] := by
  rcases he with hr | ⟨hp, ha⟩
  · rw [step_resetsNext hr h]; rfl
  · obtain ⟨rest, ha⟩ := List.head?_eq_some_iff.mp ha
    cases hf : s.resetOwed with
    | true => rw [step_resetsNext ⟨hp, .inl hf⟩ h]; rfl
    | false => rw [step_idle hp, callerTurn_cons hf ha] at h; cases h; rfl

/-- No step takes the inbound FIFO past its capacity (10_state.md R30). -/
theorem step_inLen_le {s t : State} (hs : s.inLen ≤ s.params.inCap) (h : step s = .next t) :
    t.inLen ≤ t.params.inCap := by
  rw [step_params h]
  unfold State.inLen at *
  rcases step_inbound_cases h with ht | ⟨-, b, ht⟩ | ⟨-, offered, -, ht⟩ | ⟨ht, -⟩
  · rwa [ht]
  · rw [ht, List.length_cons] at hs; omega
  · rw [ht, List.length_append, List.length_take, State.inLen]; omega
  · rw [ht]; exact Nat.zero_le _

/-- Settles O29, from the cases of a step on the inbound FIFO. -/
theorem inboundWriters : Obligations.InboundWriters := by
  intro s t hs h
  refine ⟨step_inLen_le hs.inbound_le h, fun he => step_emptiesInbound he h, ?_⟩
  rcases step_inbound_cases h with ht | hb | ⟨hp, offered, ha, ht⟩ | ht
  · exact .inl ht
  · exact .inr (.inl hb)
  · exact .inr (.inr (.inl ⟨hp, offered, _, ha, List.take_prefix _ _, ht⟩))
  · exact .inr (.inr (.inr ht))

end Sys2Proof.Machine
end

