-- ==== Sys2Proof/Proofs/BitOrder.lean ====
section
/-! The bit order of a data byte: where each pulse stands in the events of a byte, what a data byte whose pin operations
succeed does, and the order of the bits on `TDI` and in the response (20_memory.md R58). -/

namespace Sys2Proof.Machine

/-! ## The place of an event -/

/-- Pulse `i` of a byte makes its events `i` pulses after the first (41_pin_sequencer.md R147). -/
theorem byteEvents_getElem? (read : Bool) (d : Byte) (t : Nat → Level) {n i j : Nat} (hi : i < n)
    (hj : j < pulseOps read) :
    (byteEvents read d t n)[i * pulseOps read + j]? = (pulseEvents read (d.getLsbD i) (t i))[j]? := by
  induction n with
  | zero => omega
  | succ n ih =>
    rw [byteEvents_succ]
    rcases Nat.lt_succ_iff_lt_or_eq.mp hi with hlt | rfl
    · have hm : (i + 1) * pulseOps read ≤ n * pulseOps read := Nat.mul_le_mul_right _ hlt
      rw [Nat.succ_mul] at hm
      rw [List.getElem?_append_left (by rw [byteEvents_length]; omega), ih hlt]
    · rw [List.getElem?_append_right (by rw [byteEvents_length]; omega), byteEvents_length, Nat.add_sub_cancel_left]

theorem dataEvents_tdi (d : Byte) {i : Nat} (hi : i < 8) :
    (dataEvents d)[3 * i]? = some (.set .tdi (d.getLsbD i)) := by
  rw [dataEvents_eq d fun _ => false, Nat.mul_comm]
  exact byteEvents_getElem? false d _ hi (j := 0) (by decide)

theorem datarEvents_tdi (d : Byte) (t : Nat → Level) {i : Nat} (hi : i < 8) :
    (datarEvents d t)[4 * i]? = some (.set .tdi (d.getLsbD i)) := by
  rw [datarEvents_eq, Nat.mul_comm]
  exact byteEvents_getElem? true d t hi (j := 0) (by decide)

theorem datarEvents_tdo (d : Byte) (t : Nat → Level) {i : Nat} (hi : i < 8) :
    (datarEvents d t)[4 * i + 1]? = some (.read (t i)) := by
  rw [datarEvents_eq, Nat.mul_comm]
  exact byteEvents_getElem? true d t hi (j := 1) (by decide)

/-- The events made stand in the trace after those already recorded. -/
theorem made_trace_getElem? (s : State) (evs : List PinEvent) (k : Nat) :
    (s.made evs).trace[s.trace.length + k]? = evs[k]? := by
  rw [State.made_trace, List.getElem?_append_right (Nat.le_add_right _ _), Nat.add_sub_cancel_left]

/-! ## The response byte -/

/-- Bit `i` of the response is the sample of pulse `i` (41_pin_sequencer.md R147). -/
theorem samplesByte_getLsbD (t : Nat → Level) {i : Nat} (hi : i < 8) : (samplesByte t).getLsbD i = t i := by
  rw [← registerAfter_eight 0 t, registerAfter_bit 0 t 8 i hi (Nat.le_refl 8), if_neg (by omega), Nat.add_sub_cancel]

/-- Samples that echo the bits of a byte make this byte. -/
theorem samplesByte_echo {d : Byte} {t : Nat → Level} (h : ∀ i < 8, t i = d.getLsbD i) : samplesByte t = d :=
  BitVec.eq_of_getLsbD_eq fun i hi => (samplesByte_getLsbD t hi).trans (h i hi)

/-! ## Data bytes whose pin operations succeed -/

theorem shiftByte_done {s : State} (read : Bool) (d : Byte) (h : s.allDone (8 * pulseOps read) = true) :
    shiftByte read d s = .ok () { s.made (byteEvents read d (s.samples read) 8) with
      shiftRegister := samplesByte (s.samples read) } := by
  rw [← registerAfter_eight d]
  exact pulses_done (s := { s with shiftRegister := d }) read (Nat.le_refl 8) h

theorem samples_false (s : State) : s.samples false = fun _ => false := rfl

theorem samples_true (s : State) : s.samples true = fun i => s.tdoAt (4 * i + 1) := by
  funext i
  rw [Nat.mul_comm]; rfl

/-- `DATA` whose 24 drives succeed, as a whole state (43_data_bytes.md R180). -/
theorem exec_data_done {s : State} (d : Byte) (h : s.allDone 24 = true) :
    exec (.data d) s = .next (State.popByte (closeDataByte { s.made (dataEvents d) with shiftRegister := 0 })) := by
  rw [exec, execData, shiftByte_done false d h, samples_false, samplesByte_false, update_ok, finishByte_ok,
    dataEvents_eq]

/-- `DATAR` whose 32 pin operations succeed, as a whole state (43_data_bytes.md R181). -/
theorem exec_datar_done {s : State} (d : Byte) (h : s.allDone 32 = true) :
    exec (.datar d) s = .next (State.popByte (closeDataByte (State.pushResponse
      { s.made (datarEvents d fun i => s.tdoAt (4 * i + 1)) with
        shiftRegister := samplesByte fun i => s.tdoAt (4 * i + 1) }
      (samplesByte fun i => s.tdoAt (4 * i + 1))))) := by
  rw [exec, execDatar, shiftByte_done true d h, samples_true, update_ok, finishByte_ok, datarEvents_eq]

/-- Settles O19, from the place of each pulse in the events of the byte and the bits of the response. -/
theorem burstBitOrder : Obligations.BurstBitOrder := by
  intro s d
  refine ⟨fun h => ⟨_, exec_data_done d h, fun i hi => ?_⟩, fun h =>
    ⟨_, samplesByte fun i => s.tdoAt (4 * i + 1), exec_datar_done d h, rfl, fun i hi => ?_, fun i hi => ?_,
      samplesByte_echo⟩⟩
  · exact (made_trace_getElem? s _ _).trans (dataEvents_tdi d hi)
  · exact (made_trace_getElem? s _ _).trans (datarEvents_tdi d _ hi)
  · rw [samplesByte_getLsbD _ hi]
    exact (made_trace_getElem? s _ _).trans (datarEvents_tdo d (fun i => s.tdoAt (4 * i + 1)) hi)

end Sys2Proof.Machine
end

