-- ==== Sys2Proof/Proofs/ByteForms.lean ====
section
/-! The six forms of a stream byte: the mode chooses between command and data, bits 7 and 6 choose the command, READ the
data form (30_encoding.md R81 to R86). -/

namespace Sys2Proof

/-! ## The mode (R81) -/

theorem decode_byte_command (p : Params) {sel : Selector} (h : sel.remaining = 0) (b : Byte) :
    decode p sel (.byte b) = decodeCommand p b := if_pos h

theorem decode_byte_data (p : Params) {sel : Selector} (h : sel.remaining ≠ 0) (b : Byte) :
    decode p sel (.byte b) = if sel.read then .datar b else .data b := if_neg h

/-! ## The command bytes: bit 7 is SHIFT, bit 6 is READ (R82 to R84) -/

section
variable {b : Byte}

theorem decodeCommand_bb (p : Params) (h7 : b.getLsbD 7 = false) (h6 : b.getLsbD 6 = false) :
    decodeCommand p b = .bb (b.getLsbD p.tckBit) (b.getLsbD p.tmsBit) (b.getLsbD p.tdiBit) := by
  simp only [decodeCommand, h7, h6]

theorem decodeCommand_bbr (p : Params) (h7 : b.getLsbD 7 = false) (h6 : b.getLsbD 6 = true) :
    decodeCommand p b = .bbr (b.getLsbD p.tckBit) (b.getLsbD p.tmsBit) (b.getLsbD p.tdiBit) := by
  simp only [decodeCommand, h7, h6]

theorem decodeCommand_shift (p : Params) (h7 : b.getLsbD 7 = true) (h6 : b.getLsbD 6 = false) :
    decodeCommand p b = .shift (b.extractLsb' 0 6) := by
  simp only [decodeCommand, h7, h6]

theorem decodeCommand_shiftr (p : Params) (h7 : b.getLsbD 7 = true) (h6 : b.getLsbD 6 = true) :
    decodeCommand p b = .shiftr (b.extractLsb' 0 6) := by
  simp only [decodeCommand, h7, h6]

end

/-- Settles O4: the mode leaves a command or a data byte, whose form its two top bits or READ give. -/
theorem byteFormBySelector : Obligations.ByteFormBySelector := by
  intro p sel b
  refine ⟨fun h h7 h6 => ?bb, fun h h7 h6 => ?bbr, fun h h7 h6 => ?shift, fun h h7 h6 => ?shiftr,
    fun h hr => ?data, fun h hr => ?datar⟩
  case bb => rw [decode_byte_command p h, decodeCommand_bb p h7 h6]
  case bbr => rw [decode_byte_command p h, decodeCommand_bbr p h7 h6]
  case shift => rw [decode_byte_command p h, decodeCommand_shift p h7 h6]
  case shiftr => rw [decode_byte_command p h, decodeCommand_shiftr p h7 h6]
  case data => simp [decode_byte_data p h, hr]
  case datar => simp [decode_byte_data p h, hr]

end Sys2Proof
end

