-- ==== Sys2Proof/Proofs/TapTable.lean ====
section
/-! The entries of the TAP table at `Reset`, `ShiftDR` and `UpdateDR`, and what a self-loop means for a run of clocks
with one mode bit (40_tap_advance.md R111, R115, R119). -/

namespace Sys2Proof.Machine

theorem advance_reset_false : advance .reset false = .runIdle := rfl

theorem advance_reset_true : advance .reset true = .reset := rfl

theorem advance_shiftDR_false : advance .shiftDR false = .shiftDR := rfl

theorem advance_shiftDR_true : advance .shiftDR true = .exit1DR := rfl

theorem advance_updateDR_false : advance .updateDR false = .runIdle := rfl

theorem advance_updateDR_true : advance .updateDR true = .selectDR := rfl

/-- A self-loop of the table holds its state over any number of clocks with its mode bit. -/
theorem iterate_advance_of_selfLoop {c : TapCtl} {modeBit : Level} (h : advance c modeBit = c) (n : Nat) :
    (fun c => advance c modeBit)^[n] c = c :=
  Function.iterate_fixed h n

end Sys2Proof.Machine

namespace Sys2Proof

open Machine

/-- Settles O6: the six entries are the table's, and the two that are self-loops hold their state under iteration. -/
theorem sourceTapEntries : Obligations.SourceTapEntries :=
  ⟨advance_reset_false, advance_reset_true, advance_shiftDR_false, advance_shiftDR_true,
    advance_updateDR_false, advance_updateDR_true,
    iterate_advance_of_selfLoop advance_reset_true, iterate_advance_of_selfLoop advance_shiftDR_false⟩

end Sys2Proof
end

