-- ==== Sys2Proof/Proofs/BitBang.lean ====
section
/-! Bit-bang commands: `BB` and `BBR` as whole states where their pin operations succeed and where one fails, the release
detector they run, and the TAP transitions a run of them makes (41_pin_sequencer.md R145, R149, R150). -/

namespace Sys2Proof.Machine

/-! ## The release detector -/

/-- Of a running controller, a release makes one transition and everything else none (R145). -/
theorem detectRelease_tap_running (tms tck : Level) {s : State} {c : TapCtl} (hc : s.tap = .running c) :
    (detectRelease tms tck s).tap =
      .running (if s.clockLatched = true ∧ tck = false then advance c tms else c) := by
  simp only [detectRelease_tap, State.releases, hc, TapState.advance, Bool.and_eq_true, Bool.not_eq_true']
  split <;> rfl

/-! ## The drives and the detector -/

theorem bitBang_done {s : State} (tck tms tdi : Level) (h : s.allDone 3 = true) :
    bitBang tck tms tdi s = .ok () (detectRelease tms tck (s.made (bitBangEvents tck tms tdi))) := by
  rw [bitBang, applyLevels_done _ _ _ h, update_ok]

theorem bitBang_failed {s : State} (tck tms tdi : Level) {k : Nat} {e : PinEvent}
    (he : (bitBangEvents tck tms tdi)[k]? = some e) (h : s.failsAt k = true) :
    bitBang tck tms tdi s = .failed ((s.made ((bitBangEvents tck tms tdi).take k)).missed e) := by
  rw [bitBang, applyLevels_failed _ _ _ he h, update_failed]

/-- The sense of a `BBR` is its fourth pin operation (42_command_bytes.md R161). -/
theorem answerAt_sense (s : State) (tck tms tdi : Level) :
    (detectRelease tms tck (s.made (bitBangEvents tck tms tdi))).answerAt 0 = s.answerAt 3 :=
  answerAt_drop s 3 0 rfl rfl

theorem allDone_of_le {s : State} {m n : Nat} (hmn : m ≤ n) (h : s.allDone n = true) : s.allDone m = true := by
  rw [allDone_iff] at h ⊢
  exact fun k hk => h k (by omega)

/-! ## The commands as whole states -/

theorem exec_bb_done {s : State} (tck tms tdi : Level) (h : s.allDone 3 = true) :
    exec (.bb tck tms tdi) s =
      .next (detectRelease tms tck (s.made (bitBangEvents tck tms tdi))).popByte := by
  rw [exec, execBb, bitBang_done _ _ _ h, finishByte_ok]

theorem exec_bbr_done {s : State} (tck tms tdi : Level) (h : s.allDone 4 = true) :
    exec (.bbr tck tms tdi) s = .next (State.popByte (State.pushResponse
      ((detectRelease tms tck (s.made (bitBangEvents tck tms tdi))).made [.read (s.tdoAt 3)])
      (bitBangResponse s.params (s.tdoAt 3)))) := by
  have hsense : ((detectRelease tms tck (s.made (bitBangEvents tck tms tdi))).answerAt 0).isDone = true := by
    rw [answerAt_sense]; exact (allDone_iff s 4).mp h 3 (by omega)
  rw [exec, execBbr, bitBang_done _ _ _ (allDone_of_le (by omega) h), andThen_ok, pinRead_done hsense, update_ok,
    finishByte_ok, State.tdoAt, answerAt_sense]
  rfl

theorem exec_bb_failed {s : State} (tck tms tdi : Level) {k : Nat} {e : PinEvent}
    (he : (bitBangEvents tck tms tdi)[k]? = some e) (h : s.failsAt k = true) :
    exec (.bb tck tms tdi) s = .next ((s.made ((bitBangEvents tck tms tdi).take k)).missed e).raisePinFault := by
  rw [exec, execBb, bitBang_failed _ _ _ he h, finishByte_failed]

theorem exec_bbr_drive_failed {s : State} (tck tms tdi : Level) {k : Nat} {e : PinEvent}
    (he : (bitBangEvents tck tms tdi)[k]? = some e) (h : s.failsAt k = true) :
    exec (.bbr tck tms tdi) s = .next ((s.made ((bitBangEvents tck tms tdi).take k)).missed e).raisePinFault := by
  rw [exec, execBbr, bitBang_failed _ _ _ he h, andThen_failed, update_failed, finishByte_failed]

/-- The sense comes after the detector, so the requested clock level is latched when it fails; the transition the
detector may have made is lost to `Fault`. The level `l` that a sense would have found is in no field. -/
theorem exec_bbr_sense_failed {s : State} (tck tms tdi l : Level) (h : s.failsAt 3 = true) :
    exec (.bbr tck tms tdi) s = .next (State.raisePinFault
      { (s.made (bitBangEvents tck tms tdi)).missed (.read l) with clockLatched := tck }) := by
  rw [failsAt_iff] at h
  obtain ⟨hdone, hfail⟩ := h
  rw [exec, execBbr, bitBang_done _ _ _ ((allDone_iff s 3).mpr hdone), andThen_ok,
    pinRead_failed (by rw [answerAt_sense]; exact hfail) l, update_failed, finishByte_failed]
  rfl

/-- Settles O11, from the whole states of the two commands. -/
theorem releaseDetector : Obligations.ReleaseDetector := by
  intro s c tck tms tdi hc
  refine ⟨fun h => ⟨_, exec_bb_done tck tms tdi h, rfl, ?_⟩, fun h => ⟨_, exec_bbr_done tck tms tdi h, rfl, ?_⟩,
    fun h => ⟨_, exec_bbr_sense_failed tck tms tdi false h, rfl⟩, fun k hk h => ?_⟩
  · exact detectRelease_tap_running tms tck hc
  · exact detectRelease_tap_running tms tck hc
  · have he := List.getElem?_eq_getElem (show k < (bitBangEvents tck tms tdi).length from hk)
    exact ⟨⟨_, exec_bb_failed tck tms tdi he h, rfl⟩, ⟨_, exec_bbr_drive_failed tck tms tdi he h, rfl⟩⟩

/-! ## Runs of commands -/

theorem execAll_cons {i : Instr} {s t : State} (h : exec i s = .next t) (is : List Instr) :
    execAll (i :: is) s = execAll is t := by
  rw [execAll, h]

/-- A command releases exactly if the clock level before it is high and its own is low (R150). -/
theorem releasesOf_cons (latched : Level) (cmd : BitBangCommand) (cmds : List BitBangCommand) :
    releasesOf latched (cmd :: cmds) =
      if latched = true ∧ cmd.tck = false then cmd.tms :: releasesOf cmd.tck cmds else releasesOf cmd.tck cmds := by
  simp only [releasesOf, List.map_cons, List.zip_cons_cons, List.filterMap_cons, Bool.and_eq_true, Bool.not_eq_true']
  split <;> simp_all

/-- If the next `m + n` operations of `s` succeed, so do the next `n` of a state `m` operations on. -/
theorem allDone_after {s t : State} {m : Nat} (ht : ∀ k, t.answerAt k = s.answerAt (m + k)) {n : Nat}
    (h : s.allDone (m + n) = true) : t.allDone n = true := by
  rw [allDone_iff] at h ⊢
  exact fun k hk => by rw [ht]; exact h (m + k) (by omega)

/-- What a run needs to know of one command, with or without READ: the detector has run, and the oracles are as many
operations on as the command makes. -/
theorem exec_command_done {s : State} (cmd : BitBangCommand) (h : s.allDone cmd.pinOps = true) :
    ∃ t, exec cmd.instr s = .next t ∧ t.clockLatched = cmd.tck ∧
      t.tap = (detectRelease cmd.tms cmd.tck s).tap ∧ ∀ k, t.answerAt k = s.answerAt (cmd.pinOps + k) := by
  obtain ⟨read, tck, tms, tdi⟩ := cmd
  cases read with
  | false => exact ⟨_, exec_bb_done tck tms tdi h, rfl, rfl, fun k => answerAt_drop s 3 k rfl rfl⟩
  | true =>
    refine ⟨_, exec_bbr_done tck tms tdi h, rfl, rfl, fun k => answerAt_drop s 4 k ?_ rfl⟩
    simp [bitBangEvents]

/-- Settles O12, by induction on the run: each command makes the transition of its own release, if it is one. -/
theorem transitionsAreTheReleases : Obligations.TransitionsAreTheReleases := by
  intro cmds
  induction cmds with
  | nil => exact fun s c hc _ => ⟨s, rfl, hc⟩
  | cons cmd cmds ih =>
    intro s c hc h
    rw [List.map_cons, List.sum_cons] at h
    obtain ⟨t, hexec, hlatch, htap, hans⟩ := exec_command_done cmd (allDone_of_le (Nat.le_add_right _ _) h)
    rw [detectRelease_tap_running _ _ hc] at htap
    obtain ⟨u, hrun, hu⟩ := ih t _ htap (allDone_after hans h)
    refine ⟨u, (execAll_cons hexec _).trans hrun, ?_⟩
    rw [hu, hlatch, releasesOf_cons]
    split <;> rfl

end Sys2Proof.Machine
end

