-- ==== Sys2Proof/Proofs/FirstFailure.lean ====
section
/-! The first failing pin operation of a byte: every byte form ends there, in one and the same shape of state
(41_pin_sequencer.md R149). -/

namespace Sys2Proof.Machine

/-! ## Data bytes -/

theorem shiftByte_failed {s : State} (read : Bool) (d : Byte) {k : Nat} {e : PinEvent}
    (he : (byteEvents read d (s.samples read) 8)[k]? = some e) (h : s.failsAt k = true) :
    shiftByte read d s = .failed { (s.made ((byteEvents read d (s.samples read) 8).take k)).missed e with
      shiftRegister := registerAfter d (s.samples read) (k / pulseOps read) } :=
  pulses_failed (s := { s with shiftRegister := d }) read (Nat.le_refl 8) he h

theorem exec_data_failed {s : State} (d : Byte) {k : Nat} {e : PinEvent} (he : (dataEvents d)[k]? = some e)
    (h : s.failsAt k = true) :
    exec (.data d) s = .next (State.raisePinFault { (s.made ((dataEvents d).take k)).missed e with
      shiftRegister := registerAfter d (fun _ => false) (k / 3) }) := by
  rw [dataEvents_eq d (s.samples false)] at he ⊢
  rw [exec, execData, shiftByte_failed false d he h, update_failed, finishByte_failed]
  rfl

theorem exec_datar_failed {s : State} (d : Byte) {k : Nat} {e : PinEvent}
    (he : (datarEvents d fun i => s.tdoAt (4 * i + 1))[k]? = some e) (h : s.failsAt k = true) :
    exec (.datar d) s = .next (State.raisePinFault
      { (s.made ((datarEvents d fun i => s.tdoAt (4 * i + 1)).take k)).missed e with
        shiftRegister := registerAfter d (fun i => s.tdoAt (4 * i + 1)) (k / 4) }) := by
  rw [← samples_true, datarEvents_eq] at he ⊢
  rw [exec, execDatar, shiftByte_failed true d he h, update_failed, finishByte_failed]
  rfl

/-! ## Every byte form -/

/-- The byte form `i` makes the events `evs` when all its pin operations succeed (20_memory.md R67); the senses of a
`DATAR` find what the oracles of `s` will answer, the one of a `BBR` any level. -/
def ByteMakes (s : State) (i : Instr) (evs : List PinEvent) : Prop :=
  (∃ tck tms tdi, i = .bb tck tms tdi ∧ evs = bitBangEvents tck tms tdi) ∨
    (∃ tck tms tdi l, i = .bbr tck tms tdi ∧ evs = bitBangEvents tck tms tdi ++ [.read l]) ∨
    (∃ d, i = .data d ∧ evs = dataEvents d) ∨
    ∃ d, i = .datar d ∧ evs = datarEvents d fun j => s.tdoAt (4 * j + 1)

/-- The state in which operation `k` of a byte with the events `evs` was the first to fail: the `k` events before it
are made, its own event `e` is missed, and of the registers only two may have been written. -/
def State.endsAt (s : State) (evs : List PinEvent) (k : Nat) (e : PinEvent) (register : Byte) (latched : Level) :
    State :=
  State.raisePinFault { (s.made (evs.take k)).missed e with shiftRegister := register, clockLatched := latched }

/-- The last operation of a `BBR` is its sense. -/
theorem bitBangEvents_sense {tck tms tdi l : Level} {k : Nat} {e : PinEvent}
    (he : (bitBangEvents tck tms tdi ++ [.read l])[k]? = some e) :
    (bitBangEvents tck tms tdi)[k]? = some e ∨ k = 3 ∧ e = .read l := by
  rcases Nat.lt_or_ge k 3 with hk | hk
  · exact .inl (by rwa [List.getElem?_append_left hk] at he)
  · obtain rfl : k = 3 := by
      have hlt : k < 4 := (List.getElem?_eq_some_iff.mp he).1
      omega
    exact .inr ⟨rfl, (Option.some.inj he).symm⟩

/-- A byte ends at its first failing operation, and only the sense of a `BBR` fails after a write of `clock_latched`. -/
theorem exec_firstFailure {s : State} {k : Nat} {e : PinEvent} {i : Instr} {evs : List PinEvent}
    (h : s.failsAt k = true) (he : evs[k]? = some e) (hi : ByteMakes s i evs) :
    ∃ register latched, exec i s = .next (s.endsAt evs k e register latched) ∧
      ((k = 3 ∧ ∃ tck tms tdi, i = .bbr tck tms tdi) ∨ latched = s.clockLatched) := by
  obtain ⟨tck, tms, tdi, rfl, rfl⟩ | ⟨tck, tms, tdi, l, rfl, rfl⟩ | ⟨d, rfl, rfl⟩ | ⟨d, rfl, rfl⟩ := hi
  · exact ⟨_, _, exec_bb_failed tck tms tdi he h, .inr rfl⟩
  · rcases bitBangEvents_sense he with hdrive | ⟨rfl, rfl⟩
    · have hk : k ≤ (bitBangEvents tck tms tdi).length := Nat.le_of_lt (List.getElem?_eq_some_iff.mp hdrive).1
      refine ⟨s.shiftRegister, _, ?_, .inr rfl⟩
      rw [State.endsAt, List.take_append_of_le_length hk]
      exact exec_bbr_drive_failed tck tms tdi hdrive h
    · exact ⟨_, _, exec_bbr_sense_failed tck tms tdi l h, .inl ⟨rfl, _, _, _, rfl⟩⟩
  · exact ⟨_, _, exec_data_failed d he h, .inr rfl⟩
  · exact ⟨_, _, exec_datar_failed d he h, .inr rfl⟩

theorem endsAt_pinOps (s : State) {evs : List PinEvent} {k : Nat} (hk : k ≤ evs.length) (e : PinEvent)
    (register : Byte) (latched : Level) : (s.endsAt evs k e register latched).pinOps = s.pinOps + (k + 1) := by
  simp [State.endsAt, List.length_take_of_le hk, Nat.add_assoc]

/-- Settles O21, from the one shape of state in which every byte form ends at its first failing operation. -/
theorem firstFailureEndsTheByte : Obligations.FirstFailureEndsTheByte := by
  intro s k e i evs h he hi
  obtain ⟨register, latched, hexec, hlatch⟩ := exec_firstFailure h he hi
  have hk : k ≤ evs.length := Nat.le_of_lt (List.getElem?_eq_some_iff.mp he).1
  exact ⟨_, hexec, rfl, endsAt_pinOps s hk e register latched, rfl, rfl, rfl, rfl, rfl, hlatch, rfl, rfl, rfl⟩

end Sys2Proof.Machine
end

