-- ==== Sys2Proof/Proofs/Control.lean ====
section
/-! The control channel: the whole state each purge, EEPROM request, query and unrecognised request leaves
(45_control_and_framer.md R221 to R226). -/

namespace Sys2Proof.Machine

/-- Two answers to one request stand in the reports in the order they were given. -/
theorem report_report (s : State) (r₁ r₂ : Report) :
    (s.report r₁).report r₂ = { s with reports := s.reports ++ [r₁, r₂] } := by
  simp [State.report]

/-- Settles O44: each meaning is the one write and the acceptance. -/
theorem purges : Obligations.Purges := fun _ => ⟨rfl, rfl⟩

/-- Settles O46: both meanings are the rejection alone, and look at neither operand. -/
theorem eepromIsReadOnly : Obligations.EepromIsReadOnly := fun _ _ _ => ⟨rfl, rfl⟩

/-- Settles O47: the answers are the data provider's constants, which are chosen before the state. -/
theorem queriesAnswerCannedValues : Obligations.QueriesAnswerCannedValues :=
  ⟨fun subCode => ⟨Config.eepromImage subCode, fun _ => rfl⟩, ⟨Config.modemStatusAnswer, fun _ => rfl⟩,
    Config.latencyTimerAnswer, fun _ => rfl⟩

/-- Settles O48: the condition is reported first and the acceptance after it. -/
theorem otherVendorRequestsAccepted : Obligations.OtherVendorRequestsAccepted := fun s _ _ =>
  congrArg Host.Outcome.next (report_report s _ _)

end Sys2Proof.Machine
end

