-- ==== Sys2Proof/Proofs/Framer.lean ====
section
/-! The framer's outbound write, and the framer's state: when a write sends, what the host then sees, and which steps move
`framer_state` (45_control_and_framer.md R231 to R233). -/

namespace Sys2Proof.Machine

/-! ## The outbound write -/

/-- The three reasons to send (R231). -/
theorem mustSend_iff (s : State) (heartbeat : Bool) :
    s.mustSend heartbeat = true ↔ s.outbound ≠ [] ∨ heartbeat = true ∨ s.framerState = .justReset := by
  simp [State.mustSend, State.outLen, List.length_pos_iff, or_assoc]

/-- The frame has the two status bytes at least, so a transport ready for two bytes accepts two (R232). -/
theorem two_le_accepted {s : State} {w : WriteCall} (h : 2 ≤ w.accepts) : 2 ≤ s.accepted w :=
  Nat.le_min.mpr ⟨h, by simp [State.frame]⟩

/-- A write without a reason to send makes no transfer. -/
theorem framerWrite_skips {s : State} {w : WriteCall} (h : s.mustSend w.heartbeat = false) :
    framerWrite w s = s.report .skipped := by
  rw [framerWrite, h]; rfl

/-- A write of which two bytes or more are accepted sends the status bytes and the payload that was accepted with them,
takes this payload out of the FIFO, and ends `JustReset`. -/
theorem framerWrite_sends {s : State} {w : WriteCall} (hm : s.mustSend w.heartbeat = true) (ha : 2 ≤ s.accepted w) :
    ∃ k, s.accepted w = k + 2 ∧ framerWrite w s = { s with
      wire := s.wire ++ [s.params.modemStatus0 :: s.params.modemStatus1 :: s.outbound.take k]
      outbound := s.outbound.drop k
      framerState := .idle
      reports := s.reports ++ [.sent (k + 2)] } := by
  obtain ⟨k, hk⟩ := Nat.exists_eq_add_of_le' ha
  exact ⟨k, hk, by rw [framerWrite, if_pos hm, hk]; rfl⟩

/-- A write that does not send, or of which at most one byte is accepted, leaves the framer's state (R233). -/
theorem framerWrite_framerState (w : WriteCall) (s : State) :
    (framerWrite w s).framerState = s.framerState ∨ s.mustSend w.heartbeat = true ∧ 2 ≤ s.accepted w := by
  rcases framerWrite_cases w s with ⟨-, h⟩ | ⟨-, -, h⟩ | ⟨-, -, h⟩ | ⟨k, hm, hk, -⟩
  · exact .inl (by rw [h, State.report_framerState])
  · exact .inl (by rw [h, State.report_framerState])
  · exact .inl (by rw [h, State.raiseFramingFault_framerState, State.transfer_framerState])
  · exact .inr ⟨hm, by omega⟩

theorem step_write {s : State} {w : WriteCall} {rest : List Call} (hp : s.phase = .idle) (hf : s.resetOwed = false)
    (ha : s.agenda = .write w :: rest) : step s = .next (framerWrite w { s with agenda := rest }) := by
  rw [step_idle hp, callerTurn_cons hf ha]; rfl

/-- Settles O53, from the three reasons to send and what a write that sends puts on the wire. -/
theorem writeSendsWhenItMust : Obligations.WriteSendsWhenItMust := by
  intro s w rest hp hf ha
  rw [step_write hp hf ha]
  refine ⟨fun ho hh hi => ?_, fun hreason haccepts => ?_⟩
  · have hm : s.mustSend w.heartbeat = false := by
      rw [← Bool.not_eq_true, mustSend_iff]
      simp [ho, hh, hi]
    exact congrArg Host.Outcome.next (framerWrite_skips (s := { s with agenda := rest }) hm)
  · obtain ⟨k, -, hw⟩ := framerWrite_sends (s := { s with agenda := rest }) ((mustSend_iff s _).mpr hreason)
      (two_le_accepted haccepts)
    exact ⟨_, s.outbound.take k, rfl, List.take_prefix .., by rw [hw]⟩

/-! ## What leaves the framer's state alone -/

theorem ByteDone.framerState {s t : State} {evs : List PinEvent} {rs : List Byte} (h : ByteDone s t evs rs) :
    t.framerState = s.framerState := by
  simpa using congrArg State.framerState h.eq

theorem ByteFailed.framerState {s t : State} {evs : List PinEvent} {e : PinEvent} (h : ByteFailed s t evs e) :
    t.framerState = s.framerState := by
  simpa using congrArg State.framerState h.eq

@[simp] theorem beginBatch_framerState (after : Option WriteCall) (s : State) :
    (beginBatch after s).framerState = s.framerState := by
  unfold beginBatch; split <;> rfl

@[simp] theorem endBatch_framerState (consumed : Nat) (after : Option WriteCall) (s : State) :
    (endBatch consumed after s).framerState = s.framerState := by
  cases after <;> rfl

@[simp] theorem framerRead_framerState (offered : List Byte) (s : State) :
    (framerRead offered s).framerState = s.framerState := by
  rcases framerRead_cases offered s with h | ⟨_, -, -, -, h⟩ <;> rw [h] <;> rfl

/-- Of the instructions only the two full resets move the framer's state. -/
theorem exec_framerState {i : Instr} {s t : State} (h : exec i s = .next t) :
    t.framerState = s.framerState ∨ i = .reset0 ∨ i = .busReset := by
  cases hi : isByte i with
  | true =>
    obtain ⟨u, hu, hb⟩ := byte_cases i hi s
    obtain rfl : u = t := by simpa [hu] using h
    rcases hb with ⟨_, _, hb⟩ | ⟨_, _, hb⟩
    · exact .inl hb.framerState
    · exact .inl hb.framerState
  | false =>
    obtain ⟨_, ⟨hr, -⟩ | ⟨-, hu⟩ | ⟨-, hu⟩ | hu⟩ := control_cases hi s
    · exact .inr hr
    all_goals rw [hu] at h; cases h; exact .inl rfl

/-! ## The transitions (R233) -/

/-- A call whose instruction is a full reset makes the step a full reset. -/
theorem resetsNext_of_callInstr {s u : State} {c : Call} {rest : List Call} {i : Instr} (hp : s.phase = .idle)
    (ha : s.agenda = c :: rest) (hc : c.instr u = some i) (hi : i = .reset0 ∨ i = .busReset) : s.resetsNext := by
  rcases hi with rfl | rfl
  · obtain rfl := call_of_instr_reset0 hc
    exact ⟨hp, .inr ⟨rest, .inr (.inr (.inl ha))⟩⟩
  · obtain rfl := call_of_instr_busReset hc
    exact ⟨hp, .inr ⟨rest, .inl ha⟩⟩

/-- The next step is an outbound write that sends and of which the transport accepts two bytes or more. -/
def State.sendsNext (s : State) : Prop :=
  ∃ w rest, s.phase = .idle ∧ s.resetOwed = false ∧ s.agenda = .write w :: rest ∧
    s.mustSend w.heartbeat = true ∧ 2 ≤ s.accepted w

/-- Such a write leads to `Idle`. -/
theorem step_sendsNext {s t : State} (hs : s.sendsNext) (h : step s = .next t) : t.framerState = .idle := by
  obtain ⟨w, rest, hp, hf, ha, hm, hk⟩ := hs
  obtain ⟨k, -, hw⟩ := framerWrite_sends (s := { s with agenda := rest }) hm hk
  rw [step_write hp hf ha, hw] at h
  cases h; rfl

/-- Every other step that is no full reset leaves the framer's state alone. -/
theorem step_framerState {s t : State} (h : step s = .next t) :
    t.framerState = s.framerState ∨ s.resetsNext ∨ s.sendsNext := by
  rcases step_cases s with ⟨_, _, i, -, hn, hs⟩ | ⟨_, _, -, -, hs⟩ | ⟨hp, hf, -⟩ | ⟨-, -, -, hs⟩ |
    ⟨c, rest, i, hp, -, ha, hc, hs⟩ | ⟨c, rest, hp, hf, ha, -, hs⟩
  · rw [hs] at h
    refine (exec_framerState h).imp_right fun hi => ?_
    have hbyte := isByte_of_nextByte hn
    rcases hi with rfl | rfl <;> cases hbyte
  · rw [hs] at h; cases h; exact .inl (endBatch_framerState ..)
  · exact .inr (.inl ⟨hp, .inl hf⟩)
  · rw [hs] at h; cases h; exact .inl (beginBatch_framerState ..)
  · rw [hs] at h
    exact (exec_framerState h).imp_right fun hi => .inl (resetsNext_of_callInstr hp ha hc hi)
  · rw [hs] at h; cases h
    cases c with
    | process => exact .inl (beginBatch_framerState ..)
    | read offered => exact .inl (framerRead_framerState ..)
    | write w =>
      exact (framerWrite_framerState w { s with agenda := rest }).imp_right fun hsend =>
        .inr ⟨w, rest, hp, hf, ha, hsend⟩
    | poll offered w => exact .inl (by simp only [Call.effect, beginBatch_framerState, framerRead_framerState])
    | forcedReset => exact .inr (.inl ⟨hp, .inr ⟨rest, .inr (.inl ha)⟩⟩)
    | bringUp levels => exact .inr (.inl ⟨hp, .inr ⟨rest, .inr (.inr (.inr ⟨levels, ha⟩))⟩⟩)
    | control _ | busReset | lookup _ => exact .inl rfl

/-- Settles O34: a full reset and an accepted write each lead where they must, and no other step moves the framer. -/
theorem framerTransitions : Obligations.FramerTransitions := by
  intro s t h
  refine ⟨fun hr => ?_, fun w rest hp hf ha hm hk => step_sendsNext ⟨w, rest, hp, hf, ha, hm, hk⟩ h,
    fun hne => (step_framerState h).resolve_left hne⟩
  rw [step_resetsNext hr h, State.fullReset_framerState]

end Sys2Proof.Machine
end

