-- ==== Sys2Proof/Proofs/Reset.lean ====
section
/-! The full reset issued more than once (70_reset_and_hazards.md R301, R304). -/

namespace Sys2Proof.Machine

/-- R304 for `FullReset()` itself: it writes constants only, and a second run writes them again. -/
@[simp] theorem State.fullReset_fullReset (s : State) : s.fullReset.fullReset = s.fullReset := rfl

/-- A full reset keeps the reports, so an answer given before it stands after it. -/
@[simp] theorem State.report_fullReset (s : State) (r : Report) : (s.report r).fullReset = s.fullReset.report r := rfl

theorem exec_reset0 (s : State) : exec .reset0 s = .next (s.fullReset.report .accepted) := rfl

/-- `RESET(0)` on the state a `RESET(0)` left only accepts again. -/
theorem exec_reset0_reset0 {s t : State} (h : exec .reset0 s = .next t) :
    exec .reset0 t = .next (t.report .accepted) := by
  rw [exec_reset0] at h
  cases h
  rw [exec_reset0, State.report_fullReset, State.fullReset_fullReset]

/-- Settles O50: a second `RESET(0)` is its acceptance alone. -/
theorem resetIsIdempotent : Obligations.ResetIsIdempotent := by
  intro s t u ht hu
  rw [exec_reset0_reset0 ht] at hu
  cases hu; rfl

end Sys2Proof.Machine
end

