-- ==== Sys2Proof/Proofs/Encoding.lean ====
section
/-! The encoder and the decoder undo each other: on the byte forms under the selector that reads them, on the patterns
of the TAP table and on the control requests always (30_encoding.md R83 to R96). -/

namespace Sys2Proof

/-! ## Patterns and requests -/

/-- A pattern of R96 names the row of its state and mode bit. -/
theorem decodePattern_patternOf (c : TapCtl) (m : Level) : decodePattern (patternOf c m) = advanceInstr c m := by
  cases c <;> cases m <;> rfl

theorem encode_advanceInstr (p : Params) (c : TapCtl) (m : Level) :
    encode p (advanceInstr c m) = .pattern (patternOf c m) := by
  cases c <;> cases m <;> rfl

/-- Each of the 32 patterns is the state code over the mode bit. -/
theorem patternOf_ofCode : ∀ w : BitVec 5, patternOf (TapCtl.ofCode (w.extractLsb' 1 4)) (w.getLsbD 0) = w := by decide

theorem wellFormed_advanceInstr (c : TapCtl) (m : Level) : (advanceInstr c m).wellFormed = true := by
  cases c <;> cases m <;> rfl

theorem encode_decodePattern (p : Params) (w : BitVec 5) : encode p (decodePattern w) = .pattern w := by
  rw [decodePattern, encode_advanceInstr, patternOf_ofCode]

/-- The request of a RESET value from 3 on is `RESET.other` (45_control_and_framer.md R223). -/
theorem decodeRequest_resetOther {v : Nat} (h : 3 ≤ v) : decodeRequest (.reset v) = .resetOther v := by
  obtain ⟨n, rfl⟩ := Nat.exists_eq_add_of_le' h
  rfl

theorem encode_decodeRequest (p : Params) (r : ControlRequest) :
    (decodeRequest r).wellFormed = true ∧ encode p (decodeRequest r) = .request r := by
  match r with
  | .reset 0 | .reset 1 | .reset 2 => exact ⟨rfl, rfl⟩
  | .reset (v + 3) => exact ⟨decide_eq_true (Nat.le_add_left 3 v), rfl⟩
  | .eepromWrite _ _ | .eepromErase _ _ | .eepromRead _ | .modemStatusQuery | .latencyTimerQuery | .other _ _ =>
    exact ⟨rfl, rfl⟩

/-- Decoding undoes encoding on every row that is no stream byte, whatever the selector. -/
theorem decode_encode_control (p : Params) (sel : Selector) {i : Instr} (hw : i.wellFormed = true)
    (hi : Machine.isByte i = false) : decode p sel (encode p i) = i := by
  cases i
  case bb | bbr | shift | shiftr | data | datar => cases hi
  case resetOther v => exact decodeRequest_resetOther (of_decide_eq_true hw)
  all_goals rfl

/-! ## Stream bytes -/

/-- Legal parameters keep the three level bits of a bit-bang command apart (00_scope.md R7). -/
theorem Params.legal_bits {p : Params} (h : p.legal = true) :
    p.tckBit.val ≠ p.tmsBit.val ∧ p.tckBit.val ≠ p.tdiBit.val ∧ p.tmsBit.val ≠ p.tdiBit.val := by
  simp only [Params.legal, Bool.and_eq_true, decide_eq_true_eq, ne_eq, Fin.ext_iff] at h
  obtain ⟨⟨⟨-, hcm⟩, hcd⟩, hmd⟩ := h
  exact ⟨hcm, hcd, hmd⟩

/-- The two top bits and the three levels of a bit-bang command byte, on a legal machine (R83, R93). -/
theorem bitBangByte_fields {p : Params} (hp : p.legal = true) (read tck tms tdi : Bool) :
    (bitBangByte p read tck tms tdi).getLsbD 7 = false ∧ (bitBangByte p read tck tms tdi).getLsbD 6 = read ∧
      (bitBangByte p read tck tms tdi).getLsbD p.tckBit = tck ∧
      (bitBangByte p read tck tms tdi).getLsbD p.tmsBit = tms ∧
      (bitBangByte p read tck tms tdi).getLsbD p.tdiBit = tdi := by
  obtain ⟨hcm, hcd, hmd⟩ := Params.legal_bits hp
  have hc := p.tckBit.isLt
  have hm := p.tmsBit.isLt
  have hd := p.tdiBit.isLt
  refine ⟨?_, ?_, ?_, ?_, ?_⟩ <;> rw [bitBangByte_bit _ _ _ _ _ (by omega)]
  · simp [show 7 ≠ p.tckBit.val by omega, show 7 ≠ p.tmsBit.val by omega, show 7 ≠ p.tdiBit.val by omega]
  · simp [show 6 ≠ p.tckBit.val by omega, show 6 ≠ p.tmsBit.val by omega, show 6 ≠ p.tdiBit.val by omega]
  · simp [hcm, hcd, show p.tckBit.val ≠ 6 by omega]
  · simp [hcm.symm, hmd, show p.tmsBit.val ≠ 6 by omega]
  · simp [hcd.symm, hmd.symm, show p.tdiBit.val ≠ 6 by omega]

theorem decodeCommand_bitBangByte {p : Params} (hp : p.legal = true) (read tck tms tdi : Bool) :
    decodeCommand p (bitBangByte p read tck tms tdi) = if read then .bbr tck tms tdi else .bb tck tms tdi := by
  obtain ⟨h7, h6, hc, hm, hd⟩ := bitBangByte_fields hp read tck tms tdi
  cases read
  · simp [decodeCommand_bb p h7 h6, hc, hm, hd]
  · simp [decodeCommand_bbr p h7 h6, hc, hm, hd]

/-- Settles O1: the rows that are no byte do not look at the selector; of the byte forms the selector chooses between
command and data, and the fields of a command byte are read back bit by bit. -/
theorem decodeOfEncodedInstr : Obligations.DecodeOfEncodedInstr := by
  intro p sel i hp hw hr
  cases hi : Machine.isByte i with
  | false => exact decode_encode_control p sel hw hi
  | true =>
    cases i
    case bb => rw [encode, decode_byte_command p (of_decide_eq_true hr), decodeCommand_bitBangByte hp]; rfl
    case bbr => rw [encode, decode_byte_command p (of_decide_eq_true hr), decodeCommand_bitBangByte hp]; rfl
    case shift count =>
      obtain ⟨h7, h6, hcount⟩ := shiftByte_fields count
      rw [encode, decode_byte_command p (of_decide_eq_true hr), decodeCommand_shift p h7 h6, hcount]
    case shiftr count =>
      obtain ⟨h7, h6, hcount⟩ := shiftrByte_fields count
      rw [encode, decode_byte_command p (of_decide_eq_true hr), decodeCommand_shiftr p h7 h6, hcount]
    case data d =>
      obtain ⟨hsel, hread⟩ := Bool.and_eq_true_iff.mp hr
      rw [encode, decode_byte_data p (of_decide_eq_true hsel), Bool.not_eq_eq_eq_not.mp hread]; rfl
    case datar d =>
      obtain ⟨hsel, hread⟩ := Bool.and_eq_true_iff.mp hr
      rw [encode, decode_byte_data p (of_decide_eq_true hsel), hread]; rfl
    all_goals cases hi

/-- A command byte with SHIFT set is its two top bits and its count (R84). -/
theorem shiftByte_extract : ∀ b : Byte, b.getLsbD 7 = true →
    (if b.getLsbD 6 then 0xC0#8 else 0x80#8) ||| (b.extractLsb' 0 6).setWidth 8 = b := by decide

/-- A bit-bang byte made of the bits of `b` has those bits and no others (R88). -/
theorem bitBangByte_of_bits (p : Params) (b : Byte) {i : Nat} (hi : i < 8) :
    (bitBangByte p (b.getLsbD 6) (b.getLsbD p.tckBit) (b.getLsbD p.tmsBit) (b.getLsbD p.tdiBit)).getLsbD i =
      (b.getLsbD i && (i == 6 || i == p.tckBit.val || i == p.tmsBit.val || i == p.tdiBit.val)) := by
  have pick : ∀ k : Nat, (decide (i = k) && b.getLsbD k) = (b.getLsbD i && (i == k)) := by
    intro k
    by_cases h : i = k
    · subst h; simp
    · simp [h]
  rw [bitBangByte_bit _ _ _ _ _ hi, pick, pick, pick, pick]
  cases b.getLsbD i <;> simp [Bool.or_assoc, Bool.or_comm, Bool.or_left_comm]

theorem encode_decodeCommand_shift (p : Params) {b : Byte} (h7 : b.getLsbD 7 = true) :
    encode p (decodeCommand p b) = .byte b := by
  have hb := shiftByte_extract b h7
  cases h6 : b.getLsbD 6 <;> simp only [h6, Bool.false_eq_true, if_false, if_true] at hb
  · rw [decodeCommand_shift p h7 h6, encode, hb]
  · rw [decodeCommand_shiftr p h7 h6, encode, hb]

theorem encode_decodeCommand_bitBang (p : Params) {b : Byte} (h7 : b.getLsbD 7 = false) :
    encode p (decodeCommand p b) =
      .byte (bitBangByte p (b.getLsbD 6) (b.getLsbD p.tckBit) (b.getLsbD p.tmsBit) (b.getLsbD p.tdiBit)) := by
  cases h6 : b.getLsbD 6
  · rw [decodeCommand_bb p h7 h6, encode]
  · rw [decodeCommand_bbr p h7 h6, encode]

/-- Settles O2: the mode, then bit 7, leave a data byte, a shift command or a bit-bang command. -/
theorem encodeOfDecodedByte : Obligations.EncodeOfDecodedByte := by
  intro p sel b
  by_cases hs : sel.remaining = 0
  · rw [decode_byte_command p hs]
    cases h7 : b.getLsbD 7 with
    | true => exact ⟨b, encode_decodeCommand_shift p h7, fun _ => rfl, fun _ h => nomatch h⟩
    | false =>
      refine ⟨_, encode_decodeCommand_bitBang p h7, fun h => ?_, fun _ _ i hi => bitBangByte_of_bits p b hi⟩
      rcases h with h | h
      · exact absurd hs h
      · cases h
  · refine ⟨b, ?_, fun _ => rfl, fun h => absurd h hs⟩
    rw [decode_byte_data p hs]
    split <;> rfl

/-! ## Which instruction a code is of -/

/-- The stream bytes are the codes of the byte forms alone. -/
theorem isByte_of_encode {p : Params} {i : Instr} (h : ∀ b, encode p i ≠ .byte b) : Machine.isByte i = false := by
  cases i
  case bb | bbr | shift | shiftr | data | datar => exact absurd rfl (h _)
  all_goals rfl

/-- A well-formed instruction whose code is no byte is the one its code decodes to. -/
theorem eq_decode_of_encode {p : Params} {i : Instr} {c : Code} (sel : Selector) (hc : ∀ b, c ≠ .byte b)
    (hw : i.wellFormed = true) (h : encode p i = c) : i = decode p sel c := by
  subst h
  exact (decode_encode_control p sel hw (isByte_of_encode hc)).symm

/-- Settles O3: the one direction is the round trip of the rows that are no byte, the other that of their codes. -/
theorem encodeOfDecodedPatternOrRequest : Obligations.EncodeOfDecodedPatternOrRequest := by
  intro p sel i
  refine ⟨fun w => ⟨fun ⟨hw, h⟩ => ?_, ?_⟩, fun r => ⟨fun ⟨hw, h⟩ => ?_, ?_⟩, ⟨fun ⟨hw, h⟩ => ?_, ?_⟩⟩
  · exact eq_decode_of_encode sel (fun _ => nofun) hw h
  · rintro rfl
    exact ⟨wellFormed_advanceInstr _ _, encode_decodePattern p w⟩
  · exact eq_decode_of_encode sel (fun _ => nofun) hw h
  · rintro rfl
    exact encode_decodeRequest p r
  · exact eq_decode_of_encode sel (fun _ => nofun) hw h
  · rintro rfl
    exact ⟨rfl, rfl⟩

/-- Settles O5: each written word is closed, so decoding it is a computation. -/
theorem writtenWordsDecode : Obligations.WrittenWordsDecode :=
  ⟨rfl, rfl, rfl, rfl, rfl, rfl, rfl, rfl, rfl, rfl⟩

end Sys2Proof
end

