-- ==== Sys2Proof/Proofs/StepCases.lean ====
section
/-! What a step does to the block, said once for the statements about who writes what: a byte of a batch runs, or the
step is a full reset, or the block's registers, the pins and what they record are untouched. -/

namespace Sys2Proof.Machine

/-! ## A byte of a batch -/

section
variable {s t : State} {evs : List PinEvent} {rs : List Byte} {e : PinEvent}

theorem ByteDone.pins (h : ByteDone s t evs rs) : t.pins = evs.foldl Pins.after s.pins := by
  simpa using congrArg State.pins h.eq

theorem ByteDone.pinOps (h : ByteDone s t evs rs) : t.pinOps = s.pinOps + evs.length := by
  simpa using congrArg State.pinOps h.eq

theorem ByteDone.trace (h : ByteDone s t evs rs) : t.trace = s.trace ++ evs := by
  simpa using congrArg State.trace h.eq

theorem ByteDone.outbound (h : ByteDone s t evs rs) : t.outbound = s.outbound ++ rs := by
  simpa using congrArg State.outbound h.eq

theorem ByteDone.responses (h : ByteDone s t evs rs) : t.responses = s.responses ++ rs := by
  simpa using congrArg State.responses h.eq

theorem ByteDone.reports (h : ByteDone s t evs rs) : t.reports = s.reports := by
  simpa using congrArg State.reports h.eq

theorem ByteDone.wire (h : ByteDone s t evs rs) : t.wire = s.wire := by
  simpa using congrArg State.wire h.eq

theorem ByteDone.resetOwed (h : ByteDone s t evs rs) : t.resetOwed = s.resetOwed := by
  simpa using congrArg State.resetOwed h.eq

theorem ByteDone.phase (h : ByteDone s t evs rs) : t.phase = s.phase.countByte := by
  simpa using congrArg State.phase h.eq

theorem ByteFailed.tap (h : ByteFailed s t evs e) : t.tap = .fault := by
  simpa using congrArg State.tap h.eq

theorem ByteFailed.pins (h : ByteFailed s t evs e) :
    t.pins = evs.foldl Pins.after s.pins ∨ t.pins = (evs ++ [e]).foldl Pins.after s.pins := by
  have hp := congrArg State.pins h.eq
  simp only [State.raisePinFault_pins, State.missed_pins, State.made_pins] at hp
  split at hp
  · exact .inr (by rw [hp, List.foldl_concat])
  · exact .inl hp

theorem ByteFailed.pinOps (h : ByteFailed s t evs e) : t.pinOps = s.pinOps + evs.length + 1 := by
  simpa using congrArg State.pinOps h.eq

theorem ByteFailed.trace (h : ByteFailed s t evs e) : t.trace = s.trace ++ evs ++ [e.failure] := by
  simpa using congrArg State.trace h.eq

theorem ByteFailed.outbound (h : ByteFailed s t evs e) : t.outbound = s.outbound := by
  simpa using congrArg State.outbound h.eq

theorem ByteFailed.responses (h : ByteFailed s t evs e) : t.responses = s.responses := by
  simpa using congrArg State.responses h.eq

theorem ByteFailed.reports (h : ByteFailed s t evs e) : t.reports = s.reports ++ [.condition .pinFault] := by
  simpa using congrArg State.reports h.eq

theorem ByteFailed.wire (h : ByteFailed s t evs e) : t.wire = s.wire := by
  simpa using congrArg State.wire h.eq

theorem ByteFailed.agenda (h : ByteFailed s t evs e) : t.agenda = s.agenda := by
  simpa using congrArg State.agenda h.eq

theorem ByteFailed.resetOwed (h : ByteFailed s t evs e) : t.resetOwed = true := by
  simpa using congrArg State.resetOwed h.eq

theorem ByteFailed.phase (h : ByteFailed s t evs e) : t.phase = .idle := by
  simpa using congrArg State.phase h.eq

theorem failure_isFailure {e : PinEvent} (h : e.isFailure = false) : e.failure.isFailure = true := by
  cases e with
  | set | read => rfl
  | failSet | failRead => cases h

/-- The two ends of a byte form, of an answer already given. -/
theorem exec_byte_cases {i : Instr} (hi : isByte i = true) (h : exec i s = .next t) :
    (∃ evs rs, ByteDone s t evs rs) ∨ ∃ evs e, ByteFailed s t evs e := by
  obtain ⟨u, hu, hd⟩ := byte_cases i hi s
  obtain rfl : u = t := by simpa [hu] using h
  exact hd

end

/-! ## Steps that leave the block alone -/

/-- From `s` to `t` the registers, the pins, the oracles, the trace and the responses are untouched; the FIFOs, the
framer and the caller's own fields may differ. -/
structure BlockKept (s t : State) : Prop where
  eq : t = { s with
    inbound := t.inbound, outbound := t.outbound, framerState := t.framerState, phase := t.phase, agenda := t.agenda
    resetOwed := t.resetOwed, reports := t.reports, wire := t.wire }

section
variable {s t u : State}

theorem BlockKept.trans (h₁ : BlockKept s t) (h₂ : BlockKept t u) : BlockKept s u := by
  constructor
  rw [h₂.eq, h₁.eq]

theorem BlockKept.tap (h : BlockKept s t) : t.tap = s.tap := by rw [h.eq]

theorem BlockKept.shiftRemaining (h : BlockKept s t) : t.shiftRemaining = s.shiftRemaining := by rw [h.eq]

theorem BlockKept.shiftRegister (h : BlockKept s t) : t.shiftRegister = s.shiftRegister := by rw [h.eq]

theorem BlockKept.readEnabled (h : BlockKept s t) : t.readEnabled = s.readEnabled := by rw [h.eq]

theorem BlockKept.clockLatched (h : BlockKept s t) : t.clockLatched = s.clockLatched := by rw [h.eq]

theorem BlockKept.pins (h : BlockKept s t) : t.pins = s.pins := by rw [h.eq]

theorem BlockKept.pinOps (h : BlockKept s t) : t.pinOps = s.pinOps := by rw [h.eq]

theorem BlockKept.trace (h : BlockKept s t) : t.trace = s.trace := by rw [h.eq]

theorem BlockKept.responses (h : BlockKept s t) : t.responses = s.responses := by rw [h.eq]

end

theorem blockKept_agenda (s : State) (rest : List Call) : BlockKept s { s with agenda := rest } := ⟨rfl⟩

theorem beginBatch_blockKept (after : Option WriteCall) (s : State) : BlockKept s (beginBatch after s) := by
  unfold beginBatch; split <;> exact ⟨rfl⟩

theorem endBatch_blockKept (consumed : Nat) (after : Option WriteCall) (s : State) :
    BlockKept s (endBatch consumed after s) := by
  cases after <;> exact ⟨rfl⟩

theorem framerRead_blockKept (offered : List Byte) (s : State) : BlockKept s (framerRead offered s) := by
  rcases framerRead_cases offered s with h | ⟨_, -, -, -, h⟩ <;> rw [h] <;> exact ⟨rfl⟩

theorem framerWrite_blockKept (w : WriteCall) (s : State) : BlockKept s (framerWrite w s) := by
  rcases framerWrite_cases w s with ⟨-, h⟩ | ⟨-, -, h⟩ | ⟨-, -, h⟩ | ⟨_, -, -, h⟩ <;> rw [h] <;> exact ⟨rfl⟩

/-- Of the instructions that are no byte only the two full resets touch the block's registers. -/
theorem exec_control_blockKept {s t : State} {i : Instr} (hi : isByte i = false) (h : exec i s = .next t) :
    (i = .reset0 ∨ i = .busReset) ∨ BlockKept s t := by
  obtain ⟨_, ⟨hr, -⟩ | ⟨-, hu⟩ | ⟨-, hu⟩ | hu⟩ := control_cases hi s
  · exact .inl hr
  all_goals rw [hu] at h; cases h; exact .inr ⟨rfl⟩

/-- A call that hands no instruction over resets, or leaves the block alone. -/
theorem callEffect_blockKept {s u : State} {c : Call} {rest : List Call} (hp : s.phase = .idle)
    (ha : s.agenda = c :: rest) : s.resetsNext ∨ BlockKept u (c.effect u) := by
  cases c with
  | process => exact .inr (beginBatch_blockKept ..)
  | read offered => exact .inr (framerRead_blockKept ..)
  | write w => exact .inr (framerWrite_blockKept ..)
  | poll offered w => exact .inr ((framerRead_blockKept ..).trans (beginBatch_blockKept ..))
  | forcedReset => exact .inl ⟨hp, .inr ⟨rest, .inr (.inl ha)⟩⟩
  | bringUp levels => exact .inl ⟨hp, .inr ⟨rest, .inr (.inr (.inr ⟨levels, ha⟩))⟩⟩
  | control _ | busReset | lookup _ => exact .inr ⟨rfl⟩

/-- What a step is to the block: a byte, a full reset, or nothing. -/
theorem step_block_cases {s t : State} (h : step s = .next t) :
    (s.inBatch ∧ ∃ i, s.nextByte = some i ∧ exec i s = .next t) ∨ s.resetsNext ∨ BlockKept s t := by
  rcases step_cases s with ⟨_, _, i, hp, hn, hs⟩ | ⟨_, _, -, -, hs⟩ | ⟨hp, hf, -⟩ | ⟨-, -, -, hs⟩ |
    ⟨c, rest, i, hp, -, ha, hc, hs⟩ | ⟨c, rest, hp, -, ha, -, hs⟩
  · exact .inl ⟨by simp [State.inBatch, hp], i, hn, hs ▸ h⟩
  · rw [hs] at h; cases h; exact .inr (.inr (endBatch_blockKept ..))
  · exact .inr (.inl ⟨hp, .inl hf⟩)
  · rw [hs] at h; cases h; exact .inr (.inr (beginBatch_blockKept ..))
  · rw [hs] at h
    exact .inr ((exec_control_blockKept (isByte_callInstr hc) h).imp (resetsNext_of_callInstr hp ha hc)
      (blockKept_agenda s rest).trans)
  · rw [hs] at h; cases h
    exact .inr ((callEffect_blockKept hp ha).imp_right (blockKept_agenda s rest).trans)

end Sys2Proof.Machine
end

