-- ==== Sys2Proof/Proofs/ByteEffects.lean ====
section
/-! The byte forms as whole states, where all their pin operations succeed and where one fails, and what each form
leaves unchanged either way (42_command_bytes.md R160 to R165, 43_data_bytes.md R180 to R187). -/

namespace Sys2Proof.Machine

/-! ## Bit-bang commands that complete -/

/-- The detector as one update, with the release written out (41_pin_sequencer.md R145). -/
theorem detectRelease_eq (tms tck : Level) (s : State) : detectRelease tms tck s = { s with
    tap := if s.clockLatched = true ∧ tck = false then s.tap.advance tms else s.tap
    clockLatched := tck } := by
  simp [detectRelease, State.releases]

/-- Settles O13: the drives, the detector and the pop. -/
theorem bitBangEffect : Obligations.BitBangEffect := by
  intro s tck tms tdi h
  rw [exec_bb_done tck tms tdi h, detectRelease_eq]
  exact rfl

/-- Settles O14: as `BB`, with the sense and its response between the detector and the pop. -/
theorem bitBangReadEffect : Obligations.BitBangReadEffect := by
  intro s tck tms tdi h
  rw [exec_bbr_done tck tms tdi h, detectRelease_eq, ← made_made]
  exact rfl

end Sys2Proof.Machine

namespace Sys2Proof

open Machine

/-! ## The response of a bit-bang command -/

/-- The marker is one of the eight bits, and not the data-out bit (00_scope.md R7). -/
theorem markerBit_spec (p : Params) : p.markerBit < 8 ∧ p.markerBit ≠ p.tdoRespBit.val := by
  have hm := p.markerIndex.isLt
  have ht := p.tdoRespBit.isLt
  unfold Params.markerBit
  split <;> omega

theorem markerMask_bit (p : Params) {i : Nat} (hi : i < 8) : p.markerMask.getLsbD i = decide (i = p.markerBit) := by
  obtain ⟨hlt, -⟩ := markerBit_spec p
  exact (placed_bit true hlt hi).trans (Bool.and_true _)

theorem bitBangResponse_bit (p : Params) (t : Level) {i : Nat} (hi : i < 8) :
    (bitBangResponse p t).getLsbD i = (decide (i = p.tdoRespBit.val) && t || decide (i = p.markerBit)) := by
  rw [bitBangResponse, BitVec.getLsbD_or, placed_bit t p.tdoRespBit.isLt hi, markerMask_bit p hi]

/-- Settles O15, from the one equation for bit `i` of a response. -/
theorem bitBangResponseLayout : Obligations.BitBangResponseLayout := by
  intro p t
  obtain ⟨hlt, hne⟩ := markerBit_spec p
  refine ⟨hlt, hne, ?_, ?_, fun i hi htdo hmarker => ?_⟩
  · rw [bitBangResponse_bit p t p.tdoRespBit.isLt]; simp [hne.symm]
  · rw [bitBangResponse_bit p t hlt]; simp
  · rw [bitBangResponse_bit p t hi]; simp [htdo, hmarker]

end Sys2Proof

namespace Sys2Proof.Machine

/-! ## Bursts that complete -/

theorem exec_shift (count : BitVec 6) (s : State) :
    exec (.shift count) s = .next (openBurst count false s).popByte := rfl

theorem exec_shiftr (count : BitVec 6) (s : State) :
    exec (.shiftr count) s = .next (openBurst count true s).popByte := rfl

/-- Settles O16: a shift command opens its burst and is popped. -/
theorem shiftCommandEffect : Obligations.ShiftCommandEffect := fun s count =>
  ⟨exec_shift count s, exec_shiftr count s⟩

/-- Settles O17, from the whole state of a `DATA` whose drives succeed. -/
theorem dataByteEffect : Obligations.DataByteEffect := fun _ d h => exec_data_done d h

/-- Settles O18, from the whole state of a `DATAR` whose pin operations succeed. -/
theorem dataByteReadEffect : Obligations.DataByteReadEffect := fun _ d h => exec_datar_done d h

/-! ## Bytes that fail -/

/-- Settles O22: each form ends where its first failing operation stands. -/
theorem stateAfterPinFault : Obligations.StateAfterPinFault := by
  intro s k e h
  refine ⟨fun tck tms tdi he => ⟨exec_bb_failed tck tms tdi he h, exec_bbr_drive_failed tck tms tdi he h⟩,
    fun tck tms tdi hk => ?_, fun d he => exec_data_failed d he h, fun d he => exec_datar_failed d he h⟩
  subst hk
  exact exec_bbr_sense_failed tck tms tdi false h

/-! ## The two ends of a bit-bang command -/

/-- A bit-bang command ends with the detector run, the responses `rs` pushed and the byte popped, or in a `PinFault`
with nothing pushed and the latch as it was or as requested. -/
def BitBangEnds (s t : State) (tck tms : Level) (rs : List Byte) : Prop :=
  (∃ evs, t = State.popByte { detectRelease tms tck (s.made evs) with
    outbound := s.outbound ++ rs, responses := s.responses ++ rs }) ∨
  ∃ evs e latched, (latched = s.clockLatched ∨ latched = tck) ∧
    t = State.raisePinFault { (s.made evs).missed e with clockLatched := latched }

theorem exec_bb_ends {s t : State} {tck tms tdi : Level} (h : exec (.bb tck tms tdi) s = .next t) :
    BitBangEnds s t tck tms [] := by
  rcases allDone_or_failsAt s 3 with hd | ⟨k, hk, hf⟩
  · rw [exec_bb_done _ _ _ hd] at h
    cases h
    exact .inl ⟨bitBangEvents tck tms tdi, by simp only [List.append_nil]; rfl⟩
  · have he := List.getElem?_eq_getElem (show k < (bitBangEvents tck tms tdi).length from hk)
    rw [exec_bb_failed _ _ _ he hf] at h
    cases h
    exact .inr ⟨_, _, _, .inl rfl, rfl⟩

theorem exec_bbr_ends {s t : State} {tck tms tdi : Level} (h : exec (.bbr tck tms tdi) s = .next t) :
    ∃ b, BitBangEnds s t tck tms [b] := by
  rcases allDone_or_failsAt s 4 with hd | ⟨k, hk, hf⟩
  · rw [exec_bbr_done _ _ _ hd] at h
    cases h
    refine ⟨bitBangResponse s.params (s.tdoAt 3), .inl ⟨bitBangEvents tck tms tdi ++ [.read (s.tdoAt 3)], ?_⟩⟩
    rw [← made_made]; rfl
  · refine ⟨0, .inr ?_⟩
    obtain hk | rfl : k < 3 ∨ k = 3 := by omega
    · have he := List.getElem?_eq_getElem (show k < (bitBangEvents tck tms tdi).length from hk)
      rw [exec_bbr_drive_failed _ _ _ he hf] at h
      cases h
      exact ⟨_, _, _, .inl rfl, rfl⟩
    · rw [exec_bbr_sense_failed _ _ _ false hf] at h
      cases h
      exact ⟨_, _, _, .inr rfl, rfl⟩

/-- What both ends leave alone. -/
theorem BitBangEnds.frame {s t : State} {tck tms : Level} {rs : List Byte} (h : BitBangEnds s t tck tms rs) :
    t.params = s.params ∧ t.shiftRemaining = s.shiftRemaining ∧ t.shiftRegister = s.shiftRegister ∧
    t.readEnabled = s.readEnabled ∧ t.framerState = s.framerState ∧ t.agenda = s.agenda ∧ t.wire = s.wire := by
  obtain ⟨_, rfl⟩ | ⟨_, _, _, -, rfl⟩ := h <;> exact ⟨rfl, rfl, rfl, rfl, rfl, rfl, rfl⟩

theorem BitBangEnds.responses {s t : State} {tck tms : Level} {rs : List Byte} (h : BitBangEnds s t tck tms rs) :
    (t.outbound = s.outbound ∧ t.responses = s.responses) ∨
      (t.outbound = s.outbound ++ rs ∧ t.responses = s.responses ++ rs) := by
  obtain ⟨_, rfl⟩ | ⟨_, _, _, -, rfl⟩ := h
  · exact .inr ⟨rfl, rfl⟩
  · exact .inl ⟨rfl, rfl⟩

/-- Which of the two ends it was can be read off `tap`. -/
theorem BitBangEnds.faulted {s t : State} {tck tms : Level} {rs : List Byte} (h : BitBangEnds s t tck tms rs) :
    (t.tap ≠ .fault → t.inbound = s.inbound.tail ∧ t.resetOwed = s.resetOwed ∧ t.reports = s.reports) ∧
    (t.tap = .fault → s.tap ≠ .fault → t.inbound = s.inbound ∧ t.outbound = s.outbound) := by
  obtain ⟨_, rfl⟩ | ⟨_, _, _, -, rfl⟩ := h
  · exact ⟨fun _ => ⟨rfl, rfl, rfl⟩, fun ht hs => absurd ht (detectRelease_running _ _ hs)⟩
  · exact ⟨fun ht => absurd rfl ht, fun _ _ => ⟨rfl, rfl⟩⟩

/-- Responses pushed, where they are at most one. -/
theorem responses_atMostOne {s t : State} {rs : List Byte} (hone : rs.length ≤ 1)
    (h : (t.outbound = s.outbound ∧ t.responses = s.responses) ∨
      (t.outbound = s.outbound ++ rs ∧ t.responses = s.responses ++ rs)) :
    (t.outbound = s.outbound ∧ t.responses = s.responses) ∨
      ∃ b, t.outbound = s.outbound ++ [b] ∧ t.responses = s.responses ++ [b] := by
  rcases h with h | h
  · exact .inl h
  · match rs, hone with
    | [], _ => exact .inl (by simpa using h)
    | [b], _ => exact .inr ⟨b, h⟩

/-- Settles O23, from the two ends of a bit-bang command. -/
theorem bitBangFrame : Obligations.BitBangFrame := by
  intro s t tck tms tdi h
  have hbb : exec (.bb tck tms tdi) s = .next t → t.outbound = s.outbound ∧ t.responses = s.responses := fun h => by
    simpa using (exec_bb_ends h).responses
  obtain ⟨rs, hends, hone⟩ : ∃ rs, BitBangEnds s t tck tms rs ∧ rs.length ≤ 1 := by
    rcases h with h | h
    · exact ⟨[], exec_bb_ends h, Nat.zero_le 1⟩
    · obtain ⟨b, hb⟩ := exec_bbr_ends h
      exact ⟨[b], hb, Nat.le_refl 1⟩
  obtain ⟨hparams, hcount, hregister, hread, hframer, hagenda, hwire⟩ := hends.frame
  obtain ⟨hdone, hfault⟩ := hends.faulted
  refine ⟨hparams, hcount, hregister, hread, hframer, hagenda, hwire, hbb,
    responses_atMostOne hone hends.responses, hdone, hfault⟩

/-! ## The two ends of a data byte -/

/-- None of the events drives `TMS`. -/
def SparesTms (evs : List PinEvent) : Prop := ∀ l, PinEvent.set .tms l ∉ evs

theorem byteEvents_sparesTms (read : Bool) (d : Byte) (t : Nat → Level) (n : Nat) :
    SparesTms (byteEvents read d t n) := by
  intro l
  cases read <;> simp [byteEvents, pulseEvents]

/-- The events up to and including a failing one spare `TMS` if all of them do. -/
theorem SparesTms.upTo {evs : List PinEvent} (h : SparesTms evs) {k : Nat} {e : PinEvent} (he : evs[k]? = some e) :
    SparesTms (evs.take k ++ [e]) := by
  intro l hl
  rcases List.mem_append.mp hl with hl | hl
  · exact h l (List.mem_of_mem_take hl)
  · exact h l (List.mem_singleton.mp hl ▸ List.mem_of_getElem? he)

theorem after_tms {pins : Pins} {e : PinEvent} (h : ∀ l, e ≠ .set .tms l) : (pins.after e).tms = pins.tms := by
  cases e with
  | set p l =>
    cases p with
    | tms => exact absurd rfl (h l)
    | tdi | tck => rfl
  | read | failSet | failRead => rfl

theorem SparesTms.foldl {evs : List PinEvent} (h : SparesTms evs) (pins : Pins) :
    (evs.foldl Pins.after pins).tms = pins.tms := by
  induction evs generalizing pins with
  | nil => rfl
  | cons e evs ih =>
    rw [List.foldl_cons, ih (fun l hl => h l (List.mem_cons_of_mem _ hl)),
      after_tms fun l hl => h l (hl ▸ List.mem_cons_self)]

/-- A data byte ends with the responses `rs` pushed and the byte closed and popped, or in a `PinFault` with nothing
pushed; `TMS` is never driven. -/
def DataEnds (s t : State) (rs : List Byte) : Prop :=
  (∃ evs register, SparesTms evs ∧ t = State.popByte { closeDataByte (s.made evs) with
    shiftRegister := register, outbound := s.outbound ++ rs, responses := s.responses ++ rs }) ∨
  ∃ evs e register, SparesTms (evs ++ [e]) ∧
    t = State.raisePinFault { (s.made evs).missed e with shiftRegister := register }

theorem exec_data_ends {s t : State} {d : Byte} (h : exec (.data d) s = .next t) : DataEnds s t [] := by
  have hspares : SparesTms (dataEvents d) := byteEvents_sparesTms false d (fun _ => false) 8
  rcases allDone_or_failsAt s 24 with hd | ⟨k, hk, hf⟩
  · rw [exec_data_done d hd] at h
    cases h
    exact .inl ⟨dataEvents d, 0, hspares, by simp only [List.append_nil]; rfl⟩
  · have he := List.getElem?_eq_getElem (show k < (dataEvents d).length from hk)
    rw [exec_data_failed d he hf] at h
    cases h
    exact .inr ⟨_, _, _, hspares.upTo he, rfl⟩

theorem exec_datar_ends {s t : State} {d : Byte} (h : exec (.datar d) s = .next t) : ∃ b, DataEnds s t [b] := by
  have hspares : SparesTms (datarEvents d fun i => s.tdoAt (4 * i + 1)) := byteEvents_sparesTms true d _ 8
  rcases allDone_or_failsAt s 32 with hd | ⟨k, hk, hf⟩
  · rw [exec_datar_done d hd] at h
    cases h
    exact ⟨_, .inl ⟨_, _, hspares, rfl⟩⟩
  · have he := List.getElem?_eq_getElem (show k < (datarEvents d fun i => s.tdoAt (4 * i + 1)).length from hk)
    rw [exec_datar_failed d he hf] at h
    cases h
    exact ⟨0, .inr ⟨_, _, _, hspares.upTo he, rfl⟩⟩

theorem DataEnds.frame {s t : State} {rs : List Byte} (h : DataEnds s t rs) :
    t.params = s.params ∧ t.readEnabled = s.readEnabled ∧ t.framerState = s.framerState ∧ t.agenda = s.agenda ∧
      t.wire = s.wire := by
  obtain ⟨_, _, -, rfl⟩ | ⟨_, _, _, -, rfl⟩ := h <;> exact ⟨rfl, rfl, rfl, rfl, rfl⟩

theorem DataEnds.tms {s t : State} {rs : List Byte} (h : DataEnds s t rs) : t.pins.tms = s.pins.tms := by
  obtain ⟨evs, _, hspares, rfl⟩ | ⟨evs, e, _, hspares, rfl⟩ := h
  · exact hspares.foldl s.pins
  · have hevs : SparesTms evs := fun l hl => hspares l (List.mem_append_left _ hl)
    simp only [State.raisePinFault_pins, State.missed_pins, State.made_pins]
    split
    · rw [← List.foldl_concat Pins.after]; exact hspares.foldl s.pins
    · exact hevs.foldl s.pins

theorem DataEnds.responses {s t : State} {rs : List Byte} (h : DataEnds s t rs) :
    (t.outbound = s.outbound ∧ t.responses = s.responses) ∨
      (t.outbound = s.outbound ++ rs ∧ t.responses = s.responses ++ rs) := by
  obtain ⟨_, _, -, rfl⟩ | ⟨_, _, _, -, rfl⟩ := h
  · exact .inr ⟨rfl, rfl⟩
  · exact .inl ⟨rfl, rfl⟩

theorem DataEnds.faulted {s t : State} {rs : List Byte} (h : DataEnds s t rs) :
    (t.tap ≠ .fault → t.tap = s.tap ∧ t.inbound = s.inbound.tail ∧ t.resetOwed = s.resetOwed ∧
      t.reports = s.reports) ∧
    (t.tap = .fault → s.tap ≠ .fault → t.inbound = s.inbound ∧ t.outbound = s.outbound ∧
      t.shiftRemaining = s.shiftRemaining ∧ t.clockLatched = s.clockLatched) := by
  obtain ⟨_, _, -, rfl⟩ | ⟨_, _, _, -, rfl⟩ := h
  · exact ⟨fun _ => ⟨rfl, rfl, rfl, rfl⟩, fun ht hs => absurd ht hs⟩
  · exact ⟨fun ht => absurd rfl ht, fun _ _ => ⟨rfl, rfl, rfl, rfl⟩⟩

/-- Settles O24, from the two ends of a data byte. -/
theorem dataByteFrame : Obligations.DataByteFrame := by
  intro s t d h
  have hdata : exec (.data d) s = .next t → t.outbound = s.outbound ∧ t.responses = s.responses := fun h => by
    simpa using (exec_data_ends h).responses
  obtain ⟨rs, hends, hone⟩ : ∃ rs, DataEnds s t rs ∧ rs.length ≤ 1 := by
    rcases h with h | h
    · exact ⟨[], exec_data_ends h, Nat.zero_le 1⟩
    · obtain ⟨b, hb⟩ := exec_datar_ends h
      exact ⟨[b], hb, Nat.le_refl 1⟩
  obtain ⟨hparams, hread, hframer, hagenda, hwire⟩ := hends.frame
  obtain ⟨hdone, hfault⟩ := hends.faulted
  refine ⟨hparams, hread, hends.tms, hframer, hagenda, hwire, hdata,
    responses_atMostOne hone hends.responses, hdone, hfault⟩

end Sys2Proof.Machine
end

