-- ==== Sys2Proof/Proofs/Invariant.lean ====
section
/-! What every step keeps: the invariant, operation by operation; that there is a next state; and that the records only
grow (10_state.md R29, R30, R41, 60_exceptions.md R277, 70_reset_and_hazards.md R300 (d)). -/

namespace Sys2Proof.Machine

/-! ## Each operation keeps the invariant -/

section
variable {s t : State}

/-- The invariant looks at parameters, FIFOs, phase, `tap` and the owed reset only. -/
theorem State.Inv.congr (hs : s.Inv) (hparams : t.params = s.params) (hin : t.inLen ≤ s.params.inCap)
    (hout : t.outLen ≤ s.params.outCap) (hphase : t.phase = s.phase) (htap : t.tap = s.tap)
    (howed : t.resetOwed = s.resetOwed) : t.Inv where
  legal := by rw [hparams]; exact hs.legal
  inbound_le := by rw [hparams]; exact hin
  outbound_le := by rw [hparams]; exact hout
  batch_running := by rw [hphase, State.faultFree, htap, howed]; exact hs.batch_running
  fault_owed := by rw [htap, howed]; exact hs.fault_owed

theorem State.Inv.setAgenda (hs : s.Inv) (rest : List Call) : State.Inv { s with agenda := rest } :=
  hs.congr rfl hs.inbound_le hs.outbound_le rfl rfl rfl

theorem State.Inv.fullReset (hs : s.Inv) : s.fullReset.Inv where
  legal := hs.legal
  inbound_le := Nat.zero_le _
  outbound_le := Nat.zero_le _
  batch_running := fun _ => ⟨nofun, rfl⟩
  fault_owed := nofun

theorem State.Inv.bringUp (hs : s.Inv) (levels : Pins) : (s.bringUp levels).Inv :=
  hs.fullReset.congr rfl (Nat.zero_le _) (Nat.zero_le _) rfl rfl rfl

theorem State.Inv.returnPinFault (hs : s.Inv) : s.returnPinFault.Inv where
  legal := hs.legal
  inbound_le := hs.inbound_le
  outbound_le := hs.outbound_le
  batch_running := fun h => absurd rfl h
  fault_owed := fun _ => rfl

/-- A batch begins only while no fault is outstanding (44_batch_processing.md R201). -/
theorem State.Inv.beginBatch (hs : s.Inv) (howed : s.resetOwed = false) (after : Option WriteCall) :
    (beginBatch after s).Inv := by
  by_cases hf : s.tap = .fault
  · rw [beginBatch_faulted hf]; exact hs.returnPinFault
  · rw [beginBatch_running hf]
    exact ⟨hs.legal, hs.inbound_le, hs.outbound_le, fun _ => ⟨hf, howed⟩, hs.fault_owed⟩

theorem State.Inv.endBatch (hs : s.Inv) (consumed : Nat) (after : Option WriteCall) :
    (endBatch consumed after s).Inv := by
  obtain ⟨agenda, h⟩ := endBatch_eq consumed after s
  rw [h]
  exact ⟨hs.legal, hs.inbound_le, hs.outbound_le, fun h => absurd rfl h, hs.fault_owed⟩

theorem framerRead_resetOwed (offered : List Byte) (s : State) : (framerRead offered s).resetOwed = s.resetOwed := by
  rcases framerRead_cases offered s with h | ⟨_, -, -, -, h⟩ <;> rw [h] <;> rfl

/-- A read takes what fits and no more (45_control_and_framer.md R230). -/
theorem State.Inv.framerRead (hs : s.Inv) (offered : List Byte) : (framerRead offered s).Inv := by
  rcases framerRead_cases offered s with h | ⟨bs, -, hbs, hlt, h⟩ <;> rw [h]
  · exact hs.congr rfl hs.inbound_le hs.outbound_le rfl rfl rfl
  · refine hs.congr rfl ?_ hs.outbound_le rfl rfl rfl
    have hlen : bs.length ≤ s.params.inCap - s.inLen := by rw [hbs]; exact List.length_take_le ..
    simp only [State.inLen, State.report_inbound, List.length_append] at *
    omega

/-- Between batches a write can only add the owed reset. -/
theorem State.Inv.framerWrite (hs : s.Inv) (hp : s.phase = .idle) (w : WriteCall) : (framerWrite w s).Inv := by
  rcases framerWrite_cases w s with ⟨-, h⟩ | ⟨-, -, h⟩ | ⟨-, -, h⟩ | ⟨k, -, -, h⟩ <;> rw [h]
  · exact hs.congr rfl hs.inbound_le hs.outbound_le rfl rfl rfl
  · exact hs.congr rfl hs.inbound_le hs.outbound_le rfl rfl rfl
  · exact ⟨hs.legal, hs.inbound_le, hs.outbound_le, fun h => absurd hp h, fun _ => rfl⟩
  · refine hs.congr rfl hs.inbound_le ?_ rfl rfl rfl
    have hle := hs.outbound_le
    simp only [State.outLen, State.report_outbound, List.length_drop] at *
    omega

theorem State.Inv.control {i : Instr} (hs : s.Inv) (hi : isByte i = false) (h : exec i s = .next t) : t.Inv := by
  obtain ⟨_, ⟨-, hu⟩ | ⟨-, hu⟩ | ⟨-, hu⟩ | hu⟩ := control_cases hi s <;> rw [hu] at h <;> cases h
  · exact hs.fullReset.congr rfl (Nat.zero_le _) (Nat.zero_le _) rfl rfl rfl
  · exact hs.congr rfl (Nat.zero_le _) hs.outbound_le rfl rfl rfl
  · exact hs.congr rfl hs.inbound_le (Nat.zero_le _) rfl rfl rfl
  · exact hs.congr rfl hs.inbound_le hs.outbound_le rfl rfl rfl

/-- A byte taken in a batch: its response fits because there was room, and a fault ends the batch. -/
theorem State.Inv.byte {i : Instr} (hs : s.Inv) (hb : s.inBatch) (hn : s.nextByte = some i)
    (h : exec i s = .next t) : t.Inv := by
  obtain ⟨hrunning, howed⟩ := hs.batch_running hb
  obtain ⟨_, _, -, hroom, -⟩ := nextByte_some hn
  have hin := hs.inbound_le
  have hout := hs.outbound_le
  simp only [State.outFree, State.inLen, State.outLen] at *
  rcases exec_byte_cases (isByte_of_nextByte hn) h with ⟨evs, rs, hd⟩ | ⟨evs, e, hd⟩
  · refine ⟨hd.params ▸ hs.legal, ?_, ?_, fun _ => ⟨hd.running hrunning, by rw [hd.resetOwed, howed]⟩,
      fun hf => absurd hf (hd.running hrunning)⟩
    · rw [State.inLen, hd.params, hd.inbound, List.length_tail]; omega
    · have hone := hd.one
      rw [State.outLen, hd.params, hd.outbound, List.length_append]; omega
  · refine ⟨hd.params ▸ hs.legal, ?_, ?_, fun hp => absurd hd.phase hp, fun _ => hd.resetOwed⟩
    · rw [State.inLen, hd.params, hd.inbound]; exact hin
    · rw [State.outLen, hd.params, hd.outbound]; exact hout

theorem State.Inv.callEffect (hs : s.Inv) (hp : s.phase = .idle) (howed : s.resetOwed = false) (c : Call) :
    (c.effect s).Inv := by
  cases c with
  | process => exact hs.beginBatch howed none
  | read offered => exact hs.framerRead offered
  | write w => exact hs.framerWrite hp w
  | poll offered w => exact (hs.framerRead offered).beginBatch (by rw [framerRead_resetOwed, howed]) (some w)
  | forcedReset => exact hs.fullReset
  | bringUp levels => exact hs.bringUp levels
  | control _ | busReset | lookup _ => exact hs

end

/-- Settles O25: each of the operations a step can be keeps the invariant. -/
theorem stepKeepsInv : Obligations.StepKeepsInv := by
  intro s t hs h
  rcases step_cases s with ⟨_, _, i, hp, hn, hu⟩ | ⟨_, _, -, -, hu⟩ | ⟨-, -, hu⟩ | ⟨-, hf, -, hu⟩ |
    ⟨c, rest, i, -, -, -, hc, hu⟩ | ⟨c, rest, hp, hf, -, -, hu⟩ <;> rw [hu] at h
  · exact hs.byte (by simp [State.inBatch, hp]) hn h
  · cases h; exact hs.endBatch ..
  · cases h; exact hs.fullReset
  · cases h; exact hs.beginBatch hf none
  · exact (hs.setAgenda rest).control (isByte_callInstr hc) h
  · cases h; exact (hs.setAgenda rest).callEffect hp hf c

/-- Settles O26: the nominal parameters are legal, both FIFOs are empty, and nothing is under way. -/
theorem resetInv : Obligations.ResetInv where
  legal := rfl
  inbound_le := Nat.zero_le _
  outbound_le := Nat.zero_le _
  batch_running := fun h => absurd rfl h
  fault_owed := nofun

/-! ## There is a next state -/

/-- Every instruction has a next state from every state. -/
theorem exec_goesOn (i : Instr) (s : State) : ∃ t, exec i s = .next t := by
  cases hi : isByte i with
  | true =>
    obtain ⟨t, ht, -⟩ := byte_cases i hi s
    exact ⟨t, ht⟩
  | false => obtain ⟨_, ⟨-, h⟩ | ⟨-, h⟩ | ⟨-, h⟩ | h⟩ := control_cases hi s <;> exact ⟨_, h⟩

/-- Settles O27: a step is an instruction, or an operation that always answers. -/
theorem everyStepGoesOn : Obligations.EveryStepGoesOn := by
  intro s
  rcases step_cases s with ⟨_, _, i, -, -, hs⟩ | ⟨_, _, -, -, hs⟩ | ⟨-, -, hs⟩ | ⟨-, -, -, hs⟩ |
    ⟨_, _, i, -, -, -, -, hs⟩ | ⟨_, _, -, -, -, -, hs⟩ <;> rw [hs]
  · exact exec_goesOn i s
  · exact ⟨_, rfl⟩
  · exact ⟨_, rfl⟩
  · exact ⟨_, rfl⟩
  · exact exec_goesOn i _
  · exact ⟨_, rfl⟩

/-! ## The records -/

/-- From `s` to `t` every record is extended at its end (log 33). -/
structure RecordsGrow (s t : State) : Prop where
  trace : s.trace <+: t.trace
  responses : s.responses <+: t.responses
  reports : s.reports <+: t.reports
  wire : s.wire <+: t.wire

section
variable {s t u : State}

theorem RecordsGrow.trans (h₁ : RecordsGrow s t) (h₂ : RecordsGrow t u) : RecordsGrow s u :=
  ⟨h₁.trace.trans h₂.trace, h₁.responses.trans h₂.responses, h₁.reports.trans h₂.reports, h₁.wire.trans h₂.wire⟩

theorem beginBatch_recordsGrow (after : Option WriteCall) (s : State) : RecordsGrow s (beginBatch after s) := by
  unfold beginBatch
  split
  · exact ⟨by rfl, by rfl, ⟨_, rfl⟩, by rfl⟩
  · exact ⟨by rfl, by rfl, by rfl, by rfl⟩

theorem endBatch_recordsGrow (consumed : Nat) (after : Option WriteCall) (s : State) :
    RecordsGrow s (endBatch consumed after s) := by
  obtain ⟨_, h⟩ := endBatch_eq consumed after s
  rw [h]
  exact ⟨by rfl, by rfl, ⟨_, rfl⟩, by rfl⟩

theorem framerRead_recordsGrow (offered : List Byte) (s : State) : RecordsGrow s (framerRead offered s) := by
  rcases framerRead_cases offered s with h | ⟨_, -, -, -, h⟩ <;> rw [h]
  · exact ⟨by rfl, by rfl, ⟨_, rfl⟩, by rfl⟩
  · exact ⟨by rfl, by rfl, ⟨_, rfl⟩, by rfl⟩

theorem framerWrite_recordsGrow (w : WriteCall) (s : State) : RecordsGrow s (framerWrite w s) := by
  rcases framerWrite_cases w s with ⟨-, h⟩ | ⟨-, -, h⟩ | ⟨-, -, h⟩ | ⟨_, -, -, h⟩ <;> rw [h]
  · exact ⟨by rfl, by rfl, ⟨_, rfl⟩, by rfl⟩
  · exact ⟨by rfl, by rfl, ⟨_, rfl⟩, by rfl⟩
  · exact ⟨by rfl, by rfl, ⟨_, rfl⟩, ⟨_, rfl⟩⟩
  · exact ⟨by rfl, by rfl, ⟨_, rfl⟩, ⟨_, rfl⟩⟩

theorem fullReset_recordsGrow (s : State) : RecordsGrow s s.fullReset := ⟨by rfl, by rfl, by rfl, by rfl⟩

theorem exec_recordsGrow {i : Instr} (h : exec i s = .next t) : RecordsGrow s t := by
  cases hi : isByte i with
  | true =>
    rcases exec_byte_cases hi h with ⟨evs, rs, hd⟩ | ⟨evs, e, hd⟩
    · exact ⟨⟨evs, hd.trace.symm⟩, ⟨rs, hd.responses.symm⟩, by rw [hd.reports], by rw [hd.wire]⟩
    · refine ⟨⟨evs ++ [e.failure], ?_⟩, by rw [hd.responses], ⟨_, hd.reports.symm⟩, by rw [hd.wire]⟩
      rw [hd.trace, List.append_assoc]
  | false =>
    obtain ⟨answers, ⟨-, hu⟩ | ⟨-, hu⟩ | ⟨-, hu⟩ | hu⟩ := control_cases hi s <;> rw [hu] at h <;> cases h <;>
      exact ⟨by rfl, by rfl, ⟨_, rfl⟩, by rfl⟩

theorem callEffect_recordsGrow (c : Call) (s : State) : RecordsGrow s (c.effect s) := by
  cases c with
  | process => exact beginBatch_recordsGrow ..
  | read offered => exact framerRead_recordsGrow ..
  | write w => exact framerWrite_recordsGrow ..
  | poll offered w => exact (framerRead_recordsGrow ..).trans (beginBatch_recordsGrow ..)
  | forcedReset => exact fullReset_recordsGrow s
  | bringUp levels | control _ | busReset | lookup _ => exact ⟨by rfl, by rfl, by rfl, by rfl⟩

theorem step_recordsGrow (h : step s = .next t) : RecordsGrow s t := by
  have hagenda : ∀ rest, RecordsGrow s { s with agenda := rest } := fun _ => ⟨by rfl, by rfl, by rfl, by rfl⟩
  rcases step_cases s with ⟨_, _, i, -, -, hs⟩ | ⟨_, _, -, -, hs⟩ | ⟨-, -, hs⟩ | ⟨-, -, -, hs⟩ |
    ⟨_, rest, i, -, -, -, -, hs⟩ | ⟨c, rest, -, -, -, -, hs⟩ <;> rw [hs] at h
  · exact exec_recordsGrow h
  · cases h; exact endBatch_recordsGrow ..
  · cases h; exact fullReset_recordsGrow s
  · cases h; exact beginBatch_recordsGrow ..
  · exact (hagenda rest).trans (exec_recordsGrow h)
  · cases h; exact (hagenda rest).trans (callEffect_recordsGrow ..)

end

/-- Settles O28: the parameters stay, and each operation of a step extends the records. -/
theorem recordsOnlyGrow : Obligations.RecordsOnlyGrow := by
  intro s t h
  obtain ⟨htrace, hresponses, hreports, hwire⟩ := step_recordsGrow h
  exact ⟨step_params h, htrace, hresponses, hreports, hwire⟩

end Sys2Proof.Machine
end

