-- ==== Sys2Proof/Proofs/Writers.lean ====
section
/-! Who writes each register, the outbound FIFO and the pins: a byte of a batch by its form, a full reset, and nothing
else (10_state.md R23 to R27, R32, R34, R37). -/

namespace Sys2Proof.Machine

section
variable {s t : State}

/-! ## The byte forms -/

/-- A bit-bang command, of either kind, in one shape. -/
theorem exec_bitBang_ends {i : Instr} {tck tms tdi : Level} (hi : i = .bb tck tms tdi ∨ i = .bbr tck tms tdi)
    (h : exec i s = .next t) : ∃ rs, BitBangEnds s t tck tms rs := by
  rcases hi with rfl | rfl
  · exact ⟨_, exec_bb_ends h⟩
  · obtain ⟨_, hb⟩ := exec_bbr_ends h
    exact ⟨_, hb⟩

/-- A data byte, of either kind, in one shape. -/
theorem exec_dataByte_ends {i : Instr} {d : Byte} (hi : i = .data d ∨ i = .datar d) (h : exec i s = .next t) :
    ∃ rs, DataEnds s t rs := by
  rcases hi with rfl | rfl
  · exact ⟨_, exec_data_ends h⟩
  · obtain ⟨_, hb⟩ := exec_datar_ends h
    exact ⟨_, hb⟩

/-- The byte forms, each with its counterpart with READ. -/
theorem byteForm_cases {i : Instr} (hi : isByte i = true) :
    (∃ tck tms tdi, i = .bb tck tms tdi ∨ i = .bbr tck tms tdi) ∨ (∃ count, i = .shift count ∨ i = .shiftr count) ∨
      ∃ d, i = .data d ∨ i = .datar d := by
  cases i
  case bb tck tms tdi => exact .inl ⟨tck, tms, tdi, .inl rfl⟩
  case bbr tck tms tdi => exact .inl ⟨tck, tms, tdi, .inr rfl⟩
  case shift count => exact .inr (.inl ⟨count, .inl rfl⟩)
  case shiftr count => exact .inr (.inl ⟨count, .inr rfl⟩)
  case data d => exact .inr (.inr ⟨d, .inl rfl⟩)
  case datar d => exact .inr (.inr ⟨d, .inr rfl⟩)
  all_goals cases hi

/-- A byte that completes writes `tap` only as a release (41_pin_sequencer.md R145, 43_data_bytes.md R184). -/
theorem exec_byte_tap {i : Instr} (hi : isByte i = true) (h : exec i s = .next t) (ht : t.tap ≠ .fault) :
    t.tap = s.tap ∨ ∃ tms tdi, s.clockLatched = true ∧ (i = .bb false tms tdi ∨ i = .bbr false tms tdi) ∧
      t.tap = s.tap.advance tms := by
  obtain ⟨tck, tms, tdi, hform⟩ | ⟨count, rfl | rfl⟩ | ⟨d, hform⟩ := byteForm_cases hi
  · obtain ⟨rs, ⟨evs, hdone⟩ | ⟨_, _, _, -, hfail⟩⟩ := exec_bitBang_ends hform h
    · have htap : t.tap = if s.clockLatched && !tck then s.tap.advance tms else s.tap := by rw [hdone]; rfl
      split at htap
      · next hrelease =>
        obtain ⟨hlatched, htck⟩ := Bool.and_eq_true_iff.mp hrelease
        obtain rfl := Bool.not_eq_eq_eq_not.mp htck
        exact .inr ⟨tms, tdi, hlatched, hform, htap⟩
      · exact .inl htap
    · exact absurd (by rw [hfail]; rfl) ht
  · cases h; exact .inl rfl
  · cases h; exact .inl rfl
  · obtain ⟨rs, hends⟩ := exec_dataByte_ends hform h
    obtain ⟨hdone, -⟩ := hends.faulted
    obtain ⟨htap, -⟩ := hdone ht
    exact .inl htap

/-- A data byte counts its burst down, or fails and leaves the count (43_data_bytes.md R182). -/
theorem exec_byte_shiftRemaining {i : Instr} (hi : isByte i = true) (h : exec i s = .next t) :
    t.shiftRemaining = s.shiftRemaining ∨ (i = .shift t.shiftRemaining ∨ i = .shiftr t.shiftRemaining) ∨
      (∃ d, i = .data d ∨ i = .datar d) ∧ t.shiftRemaining = countDown s.shiftRemaining := by
  obtain ⟨tck, tms, tdi, hform⟩ | ⟨count, rfl | rfl⟩ | ⟨d, hform⟩ := byteForm_cases hi
  · obtain ⟨rs, hends⟩ := exec_bitBang_ends hform h
    obtain ⟨-, hcount, -⟩ := hends.frame
    exact .inl hcount
  · cases h; exact .inr (.inl (.inl rfl))
  · cases h; exact .inr (.inl (.inr rfl))
  · obtain ⟨rs, ⟨_, _, -, hdone⟩ | ⟨_, _, _, -, hfail⟩⟩ := exec_dataByte_ends hform h
    · exact .inr (.inr ⟨⟨d, hform⟩, by rw [hdone]; rfl⟩)
    · exact .inl (by rw [hfail]; rfl)

theorem exec_byte_readEnabled {i : Instr} (hi : isByte i = true) (h : exec i s = .next t) :
    t.readEnabled = s.readEnabled ∨ ∃ count, (i = .shift count ∧ t.readEnabled = false) ∨
      (i = .shiftr count ∧ t.readEnabled = true) := by
  obtain ⟨tck, tms, tdi, hform⟩ | ⟨count, rfl | rfl⟩ | ⟨d, hform⟩ := byteForm_cases hi
  · obtain ⟨rs, hends⟩ := exec_bitBang_ends hform h
    obtain ⟨-, -, -, hread, -⟩ := hends.frame
    exact .inl hread
  · cases h; exact .inr ⟨count, .inl ⟨rfl, rfl⟩⟩
  · cases h; exact .inr ⟨count, .inr ⟨rfl, rfl⟩⟩
  · obtain ⟨rs, hends⟩ := exec_dataByte_ends hform h
    obtain ⟨-, hread, -⟩ := hends.frame
    exact .inl hread

theorem exec_byte_clockLatched {i : Instr} (hi : isByte i = true) (h : exec i s = .next t) :
    t.clockLatched = s.clockLatched ∨
      (∃ tck tms tdi, (i = .bb tck tms tdi ∨ i = .bbr tck tms tdi) ∧ t.clockLatched = tck) ∨
      (∃ d, i = .data d ∨ i = .datar d) ∧ t.clockLatched = false := by
  obtain ⟨tck, tms, tdi, hform⟩ | ⟨count, rfl | rfl⟩ | ⟨d, hform⟩ := byteForm_cases hi
  · obtain ⟨rs, ⟨_, hdone⟩ | ⟨_, _, latched, hlatched, hfail⟩⟩ := exec_bitBang_ends hform h
    · exact .inr (.inl ⟨tck, tms, tdi, hform, by rw [hdone]; rfl⟩)
    · have ht : t.clockLatched = latched := by rw [hfail]; rfl
      rw [ht]
      exact hlatched.imp_right fun hl => .inl ⟨tck, tms, tdi, hform, hl⟩
  · cases h; exact .inl rfl
  · cases h; exact .inl rfl
  · obtain ⟨rs, ⟨_, _, -, hdone⟩ | ⟨_, _, _, -, hfail⟩⟩ := exec_dataByte_ends hform h
    · exact .inr (.inr ⟨⟨d, hform⟩, by rw [hdone]; rfl⟩)
    · exact .inl (by rw [hfail]; rfl)

/-! ## The mode in which a byte is taken (30_encoding.md R81) -/

theorem nextByte_eq_or {i a b : Instr} (hn : s.nextByte = some i) (h : i = a ∨ i = b) :
    s.nextByte = some a ∨ s.nextByte = some b := by
  rcases h with rfl | rfl
  · exact .inl hn
  · exact .inr hn

/-- A shift command is taken while no burst is open. -/
theorem nextByte_shift {count : BitVec 6} (h : s.nextByte = some (.shift count) ∨ s.nextByte = some (.shiftr count)) :
    s.shiftRemaining = 0 := by
  by_contra hne
  have hdata : ∀ b, decode s.params s.selector (.byte b) = if s.readEnabled then .datar b else .data b :=
    decode_byte_data s.params (sel := s.selector) hne
  rcases h with h | h <;> obtain ⟨b, _, -, -, hi⟩ := nextByte_some h <;> rw [hdata] at hi <;> split at hi <;> cases hi

/-- No command byte is a data byte. -/
theorem decodeCommand_ne_data (p : Params) (b d : Byte) :
    decodeCommand p b ≠ .data d ∧ decodeCommand p b ≠ .datar d := by
  unfold decodeCommand
  split <;> exact ⟨nofun, nofun⟩

/-- A data byte is taken while a burst is open. -/
theorem nextByte_data {d : Byte} (h : s.nextByte = some (.data d) ∨ s.nextByte = some (.datar d)) :
    s.shiftRemaining ≠ 0 := by
  intro hzero
  have hcommand : ∀ b, decode s.params s.selector (.byte b) = decodeCommand s.params b :=
    decode_byte_command s.params (sel := s.selector) hzero
  rcases h with h | h <;> obtain ⟨b, _, -, -, hi⟩ := nextByte_some h <;> rw [hcommand] at hi
  · exact (decodeCommand_ne_data s.params b d).1 hi.symm
  · exact (decodeCommand_ne_data s.params b d).2 hi.symm

/-- Within a burst the count goes down by one and does not wrap (43_data_bytes.md R182). -/
theorem countDown_toNat {n : BitVec 6} (h : n ≠ 0) : n.toNat = (countDown n).toNat + 1 := by
  unfold countDown
  bv_omega

end

/-! ## The registers -/

/-- Settles O31: of the steps that are no full reset only a byte writes `tap`, and in a sound state it finds it
running. -/
theorem tapWriters : Obligations.TapWriters := by
  intro s t hinv h hne
  obtain ⟨hb, i, hn, hx⟩ | hr | hk := step_block_cases h
  · obtain ⟨hrunning, -⟩ := hinv.batch_running hb
    have hi := isByte_of_nextByte hn
    rcases exec_byte_cases hi hx with ⟨_, _, hd⟩ | ⟨evs, e, hd⟩
    · obtain htap | ⟨tms, tdi, hlatched, hform, htap⟩ := exec_byte_tap hi hx (hd.running hrunning)
      · exact absurd htap hne
      · cases hc : s.tap with
        | fault => exact absurd hc hrunning
        | running c =>
          rw [hc] at htap
          exact .inl ⟨c, tms, tdi, rfl, hb, hlatched, nextByte_eq_or hn hform, htap⟩
    · exact .inr (.inl ⟨hb, hd.tap, evs, e.failure, hd.trace, failure_isFailure hd.real⟩)
  · exact .inr (.inr ⟨hr, by rw [step_resetsNext hr h]; rfl⟩)
  · exact absurd hk.tap hne

/-- Settles O32: the mode says which byte forms can be taken, and what these write. -/
theorem shiftRemainingWriters : Obligations.ShiftRemainingWriters := by
  intro s t h hne
  obtain ⟨hb, i, hn, hx⟩ | hr | hk := step_block_cases h
  · obtain hsame | hload | ⟨⟨d, hdata⟩, hcount⟩ := exec_byte_shiftRemaining (isByte_of_nextByte hn) hx
    · exact absurd hsame hne
    · have hload : s.nextByte = some (.shift t.shiftRemaining) ∨ s.nextByte = some (.shiftr t.shiftRemaining) :=
        nextByte_eq_or hn hload
      exact .inl ⟨hb, nextByte_shift hload, hload⟩
    · have hdata : s.nextByte = some (.data d) ∨ s.nextByte = some (.datar d) := nextByte_eq_or hn hdata
      refine .inr (.inl ⟨hb, ⟨d, hdata⟩, ?_⟩)
      rw [hcount]
      exact countDown_toNat (nextByte_data hdata)
  · exact .inr (.inr ⟨hr, by rw [step_resetsNext hr h]; rfl⟩)
  · exact absurd hk.shiftRemaining hne

/-- Settles O33, from what each byte form writes to the two flags. -/
theorem modeFlagWriters : Obligations.ModeFlagWriters := by
  intro s t h
  obtain ⟨hb, i, hn, hx⟩ | hr | hk := step_block_cases h
  · have hi := isByte_of_nextByte hn
    refine ⟨(exec_byte_readEnabled hi hx).imp_right fun ⟨count, hform⟩ => .inl ⟨hb, count, ?_⟩,
      (exec_byte_clockLatched hi hx).imp_right (Or.imp (fun ⟨tck, tms, tdi, hform, ht⟩ => ?_)
        fun ⟨⟨d, hform⟩, ht⟩ => .inl ?_)⟩
    · exact hform.imp (fun ⟨hf, ht⟩ => ⟨hf ▸ hn, ht⟩) (fun ⟨hf, ht⟩ => ⟨hf ▸ hn, ht⟩)
    · exact ⟨hb, tck, tms, tdi, nextByte_eq_or hn hform, ht⟩
    · exact ⟨hb, ⟨d, nextByte_eq_or hn hform⟩, ht⟩
  · have ht := step_resetsNext hr h
    exact ⟨.inr (.inr ⟨hr, by rw [ht]; rfl⟩), .inr (.inr (.inr ⟨hr, by rw [ht]; rfl⟩))⟩
  · exact ⟨.inl hk.readEnabled, .inl hk.clockLatched⟩

/-! ## The pins -/

/-- A full reset of any source makes no pin operation, and only bring-up moves the pins (70_reset_and_hazards.md R303,
R306). -/
theorem resetsNext_pins {s t : State} (hr : s.resetsNext) (h : step s = .next t) :
    t.pins = s.pins ∨ ∃ levels rest, s.agenda = .bringUp levels :: rest ∧ t.pins = levels := by
  obtain ⟨hp, hr⟩ := hr
  rw [step_idle hp] at h
  cases hf : s.resetOwed with
  | true => rw [callerTurn_forces hf] at h; cases h; exact .inl rfl
  | false =>
    obtain ⟨rest, ha | ha | ha | ⟨levels, ha⟩⟩ := hr.resolve_left (by simp [hf]) <;>
      rw [callerTurn_cons hf ha] at h <;> cases h
    · exact .inl rfl
    · exact .inl rfl
    · exact .inl rfl
    · exact .inr ⟨levels, rest, ha, rfl⟩

/-- Settles O35: a byte's pins are what its events make of them, and every other step makes no event. -/
theorem pinsFollowTheTrace : Obligations.PinsFollowTheTrace := by
  intro s t h
  obtain ⟨-, i, hn, hx⟩ | hr | hk := step_block_cases h
  · rcases exec_byte_cases (isByte_of_nextByte hn) hx with ⟨evs, _, hd⟩ | ⟨evs, e, hd⟩
    · exact .inr ⟨evs, hd.made, .inl ⟨hd.pinOps, hd.trace, hd.pins⟩⟩
    · exact .inr ⟨evs, hd.made, .inr ⟨e, hd.real, hd.pinOps, hd.trace, hd.pins⟩⟩
  · have ht := step_resetsNext hr h
    have htrace : t.trace = s.trace := by rw [ht]; rfl
    have hops : t.pinOps = s.pinOps := by rw [ht]; rfl
    obtain hpins | ⟨levels, rest, ha, hpins⟩ := resetsNext_pins hr h
    · exact .inr ⟨[], rfl, .inl ⟨hops, by rw [htrace, List.append_nil], hpins⟩⟩
    · obtain ⟨hp, -⟩ := hr
      exact .inl ⟨hp, htrace, levels, rest, ha, hpins⟩
  · exact .inr ⟨[], rfl, .inl ⟨hk.pinOps, by rw [hk.trace, List.append_nil], hk.pins⟩⟩

/-! ## The outbound FIFO -/

/-- The step empties the outbound FIFO: a full reset, or `RESET(2)` (10_state.md R32). -/
def State.emptiesOutbound (s : State) : Prop :=
  s.resetsNext ∨ (s.phase = .idle ∧ s.agenda.head? = some (.control (.reset 2)))

theorem call_of_instr_reset2 {s : State} {c : Call} (h : c.instr s = some .reset2) : c = .control (.reset 2) := by
  simpa [encode] using encode_callInstr h s.params

@[simp] theorem beginBatch_outbound (after : Option WriteCall) (s : State) :
    (beginBatch after s).outbound = s.outbound := by
  unfold beginBatch; split <;> rfl

@[simp] theorem endBatch_outbound (consumed : Nat) (after : Option WriteCall) (s : State) :
    (endBatch consumed after s).outbound = s.outbound := by
  cases after <;> rfl

@[simp] theorem framerRead_outbound (offered : List Byte) (s : State) :
    (framerRead offered s).outbound = s.outbound := by
  rcases framerRead_cases offered s with h | ⟨_, -, -, -, h⟩ <;> rw [h] <;> rfl

/-- What leaves the FIFO stands on the wire after the two status bytes (45_control_and_framer.md R232). -/
theorem framerWrite_outbound (w : WriteCall) (s : State) :
    (framerWrite w s).outbound = s.outbound ∨ ∃ k, s.outbound = s.outbound.take k ++ (framerWrite w s).outbound ∧
      (framerWrite w s).wire = s.wire ++ [s.params.modemStatus0 :: s.params.modemStatus1 :: s.outbound.take k] := by
  rcases framerWrite_cases w s with ⟨-, h⟩ | ⟨-, -, h⟩ | ⟨-, -, h⟩ | ⟨k, -, -, h⟩ <;> rw [h]
  · exact .inl rfl
  · exact .inl rfl
  · exact .inl rfl
  · exact .inr ⟨k, (List.take_append_drop k s.outbound).symm, rfl⟩

/-- A byte leaves the outbound FIFO alone, or appends the one response it records. -/
theorem exec_byte_outbound {s t : State} {i : Instr} (hi : isByte i = true) (h : exec i s = .next t) :
    t.outbound = s.outbound ∨ ∃ b, t.outbound = s.outbound ++ [b] ∧ t.responses = s.responses ++ [b] := by
  rcases exec_byte_cases hi h with ⟨_, rs, hd⟩ | ⟨_, _, hd⟩
  · exact (responses_atMostOne hd.one (.inr ⟨hd.outbound, hd.responses⟩)).imp_left And.left
  · exact .inl hd.outbound

theorem exec_control_outbound {s t : State} {i : Instr} (hi : isByte i = false) (h : exec i s = .next t) :
    t.outbound = s.outbound ∨ t.outbound = [] ∧ ((i = .reset0 ∨ i = .busReset) ∨ i = .reset2) := by
  obtain ⟨_, ⟨hr, hu⟩ | ⟨-, hu⟩ | ⟨hr, hu⟩ | hu⟩ := control_cases hi s <;> rw [hu] at h <;> cases h
  · exact .inr ⟨rfl, .inl hr⟩
  · exact .inl rfl
  · exact .inr ⟨rfl, .inr hr⟩
  · exact .inl rfl

theorem emptiesOutbound_of_callInstr {s u : State} {c : Call} {rest : List Call} {i : Instr} (hp : s.phase = .idle)
    (ha : s.agenda = c :: rest) (hc : c.instr u = some i) (hi : (i = .reset0 ∨ i = .busReset) ∨ i = .reset2) :
    s.emptiesOutbound := by
  rcases hi with hi | rfl
  · exact .inl (resetsNext_of_callInstr hp ha hc hi)
  · obtain rfl := call_of_instr_reset2 hc
    exact .inr ⟨hp, by rw [ha, List.head?_cons]⟩

/-- Everything a step can do to the outbound FIFO. -/
theorem step_outbound_cases {s t : State} (h : step s = .next t) :
    t.outbound = s.outbound ∨
    (s.inBatch ∧ ∃ b, t.outbound = s.outbound ++ [b] ∧ t.responses = s.responses ++ [b]) ∨
    (s.phase = .idle ∧ ∃ w k, s.agenda.head? = some (.write w) ∧ s.outbound = s.outbound.take k ++ t.outbound ∧
      t.wire = s.wire ++ [s.params.modemStatus0 :: s.params.modemStatus1 :: s.outbound.take k]) ∨
    (t.outbound = [] ∧ s.emptiesOutbound) := by
  rcases step_cases s with ⟨_, _, i, hp, hn, hs⟩ | ⟨_, _, -, -, hs⟩ | ⟨hp, hf, hs⟩ | ⟨-, -, -, hs⟩ |
    ⟨c, rest, i, hp, -, ha, hc, hs⟩ | ⟨c, rest, hp, -, ha, -, hs⟩ <;> rw [hs] at h
  · exact (exec_byte_outbound (isByte_of_nextByte hn) h).imp_right fun hb => .inl ⟨by simp [State.inBatch, hp], hb⟩
  · cases h; exact .inl (endBatch_outbound ..)
  · cases h; exact .inr (.inr (.inr ⟨rfl, .inl ⟨hp, .inl hf⟩⟩))
  · cases h; exact .inl (beginBatch_outbound ..)
  · exact (exec_control_outbound (isByte_callInstr hc) h).imp_right fun ⟨he, hi⟩ =>
      .inr (.inr ⟨he, emptiesOutbound_of_callInstr hp ha hc hi⟩)
  · cases h
    cases c with
    | process => exact .inl (beginBatch_outbound ..)
    | read offered => exact .inl (framerRead_outbound ..)
    | write w =>
      exact (framerWrite_outbound w { s with agenda := rest }).imp_right fun ⟨k, ho, hw⟩ =>
        .inr (.inl ⟨hp, w, k, by rw [ha, List.head?_cons], ho, hw⟩)
    | poll offered w => exact .inl (by simp only [Call.effect, beginBatch_outbound, framerRead_outbound])
    | forcedReset => exact .inr (.inr (.inr ⟨rfl, .inl ⟨hp, .inr ⟨rest, .inr (.inl ha)⟩⟩⟩))
    | bringUp levels => exact .inr (.inr (.inr ⟨rfl, .inl ⟨hp, .inr ⟨rest, .inr (.inr (.inr ⟨levels, ha⟩))⟩⟩⟩))
    | control _ | busReset | lookup _ => exact .inl rfl

/-- A full reset and `RESET(2)` do empty it. -/
theorem step_emptiesOutbound {s t : State} (he : s.emptiesOutbound) (h : step s = .next t) : t.outbound = [] := by
  rcases he with hr | ⟨hp, ha⟩
  · rw [step_resetsNext hr h]; rfl
  · obtain ⟨rest, ha⟩ := List.head?_eq_some_iff.mp ha
    cases hf : s.resetOwed with
    | true => rw [step_resetsNext ⟨hp, .inl hf⟩ h]; rfl
    | false => rw [step_idle hp, callerTurn_cons hf ha] at h; cases h; rfl

/-- Settles O30, from the cases of a step on the outbound FIFO and the invariant it keeps. -/
theorem outboundWriters : Obligations.OutboundWriters := fun s t hinv h =>
  ⟨(stepKeepsInv s t hinv h).outbound_le, fun he => step_emptiesOutbound he h, step_outbound_cases h⟩

end Sys2Proof.Machine
end

