-- ==== Sys2Proof/Proofs/FramerOutcomes.lean ====
section
/-! The outcomes of the framer's two operations as whole states, one equation for each case (45_control_and_framer.md
R230 to R232, 60_exceptions.md R261, R263). -/

namespace Sys2Proof.Machine

section
variable {s : State}

/-! ## The inbound read -/

theorem framerRead_refused {offered : List Byte} (h : s.params.inCap ≤ s.inLen ∨ offered = []) :
    framerRead offered s = s.report (.condition .transientWouldBlock) := by
  rcases framerRead_cases offered s with hr | ⟨bs, hne, hbs, hlt, -⟩
  · exact hr
  · rcases h with hfull | rfl
    · omega
    · rw [List.take_nil] at hbs
      exact absurd hbs hne

theorem framerRead_takes {offered : List Byte} (hroom : s.inLen < s.params.inCap) (hne : offered ≠ []) :
    framerRead offered s = { s with
      inbound := s.inbound ++ offered.take (s.params.inCap - s.inLen)
      reports := s.reports ++ [.took (min (s.params.inCap - s.inLen) offered.length)] } := by
  have htake : offered.take (s.params.inCap - s.inLen) ≠ [] := by
    rw [Ne, List.take_eq_nil_iff]
    exact not_or.mpr ⟨by omega, hne⟩
  rw [← List.length_take]
  unfold framerRead
  rw [if_neg (by omega)]
  split
  · exact absurd ‹_› htake
  · simp [State.report, *]

theorem step_read {offered : List Byte} {rest : List Call} (hp : s.phase = .idle) (hf : s.resetOwed = false)
    (ha : s.agenda = .read offered :: rest) : step s = .next (framerRead offered { s with agenda := rest }) := by
  rw [step_idle hp, callerTurn_cons hf ha]; rfl

/-! ## The outbound write -/

section
variable {w : WriteCall} (hm : s.mustSend w.heartbeat = true)
include hm

theorem framerWrite_zero (ha : s.accepted w = 0) : framerWrite w s = s.report (.condition .transientWouldBlock) := by
  rw [framerWrite, if_pos hm, ha]

theorem framerWrite_one (ha : s.accepted w = 1) : framerWrite w s = (s.transfer 1).raiseFramingFault := by
  rw [framerWrite, if_pos hm, ha]

theorem framerWrite_many {k : Nat} (ha : s.accepted w = k + 2) : framerWrite w s = { s with
    wire := s.wire ++ [s.params.modemStatus0 :: s.params.modemStatus1 :: s.outbound.take k]
    outbound := s.outbound.drop k
    framerState := .idle
    reports := s.reports ++ [.sent (k + 2)] } := by
  rw [framerWrite, if_pos hm, ha]; rfl

end

/-- The frame is the payload behind the two status bytes (R232). -/
theorem accepted_eq (s : State) (w : WriteCall) : s.accepted w = min w.accepts (s.outbound.length + 2) := rfl

end

/-- Settles O54, from the equations of a write that sends. -/
theorem writeOutcomes : Obligations.WriteOutcomes := by
  intro s w rest hp hf ha hreason
  have hm : State.mustSend { s with agenda := rest } w.heartbeat = true := (mustSend_iff s _).mpr hreason
  rw [step_write hp hf ha]
  refine ⟨fun h0 => ?_, fun h1 => ?_, fun k hk => ?_⟩
  · rw [framerWrite_zero hm (by rw [accepted_eq, h0, Nat.zero_min])]; rfl
  · rw [framerWrite_one hm (by rw [accepted_eq, h1]; exact Nat.min_eq_left (Nat.le_add_left 1 _))]; rfl
  · rw [framerWrite_many hm hk]

/-- Settles O55, from the two equations of a read. -/
theorem readOutcomes : Obligations.ReadOutcomes := by
  intro s offered rest hp hf ha
  rw [step_read hp hf ha]
  refine ⟨fun h => ?_, fun hroom hne => ?_⟩
  · exact congrArg Host.Outcome.next (framerRead_refused (s := { s with agenda := rest }) h)
  · exact congrArg Host.Outcome.next (framerRead_takes (s := { s with agenda := rest }) hroom hne)

end Sys2Proof.Machine
end

