-- ==== Sys2Proof/Proofs/Simulation.lean ====
section
/-! Two states that agree on what a byte looks at run a byte alike: once for every relation the shared operations keep,
then for states with the same block (44_batch_processing.md R205) and for states that differ in the belief about the
TAP controller (70_reset_and_hazards.md R317). -/

namespace Sys2Proof.Machine

/-! ## Relations that the operations of a byte keep -/

/-- `R` says enough for a byte to run alike from both states, and each operation of a byte keeps it. -/
structure ByteSimulation (R : State → State → Prop) : Prop where
  params {s t} : R s t → t.params = s.params
  shiftRegister {s t} : R s t → t.shiftRegister = s.shiftRegister
  answer {s t} : R s t → t.answerAt 0 = s.answerAt 0
  operate {s t} (e : PinEvent) : R s t → R (s.operate e) (t.operate e)
  drive {s t} (p : Pin) (l : Level) : R s t → R (s.drive p l) (t.drive p l)
  load {s t} (r : Byte) : R s t → R { s with shiftRegister := r } { t with shiftRegister := r }
  detectRelease {s t} (tms tck : Level) : R s t → R (detectRelease tms tck s) (detectRelease tms tck t)
  openBurst {s t} (count : BitVec 6) (read : Bool) : R s t → R (openBurst count read s) (openBurst count read t)
  closeDataByte {s t} : R s t → R (closeDataByte s) (closeDataByte t)
  pushResponse {s t} (b : Byte) : R s t → R (s.pushResponse b) (t.pushResponse b)
  popByte {s t} : R s t → R s.popByte t.popByte
  raisePinFault {s t} : R s t → R s.raisePinFault t.raisePinFault

/-- Two sequences of pin operations end alike: both succeed with the same value or both fail, in related states. -/
inductive Alike (R : State → State → Prop) {α : Type} : Attempt α → Attempt α → Prop where
  | ok {s t : State} (a : α) (h : R s t) : Alike R (.ok a s) (.ok a t)
  | failed {s t : State} (h : R s t) : Alike R (.failed s) (.failed t)

section
variable {R : State → State → Prop} {s t : State}

theorem Alike.andThen {α β : Type} {x y : Attempt α} {f g : α → State → Attempt β} (h : Alike R x y)
    (hf : ∀ a s t, R s t → Alike R (f a s) (g a t)) : Alike R (x.andThen f) (y.andThen g) := by
  cases h with
  | ok a h => exact hf a _ _ h
  | failed h => exact .failed h

theorem Alike.update {α : Type} {x y : Attempt α} {f : α → State → State} (h : Alike R x y)
    (hf : ∀ a s t, R s t → R (f a s) (f a t)) : Alike R (x.update f) (y.update f) := by
  cases h with
  | ok a h => exact .ok () (hf a _ _ h)
  | failed h => exact .failed h

variable (hR : ByteSimulation R)
include hR

theorem Alike.finishByte {x y : Attempt Unit} (h : Alike R x y) : R (finishByte x) (finishByte y) := by
  cases h with
  | ok a h => exact hR.popByte h
  | failed h => exact hR.raisePinFault h

theorem pinSet_alike (p : Pin) (l : Level) (h : R s t) : Alike R (pinSet p l s) (pinSet p l t) := by
  unfold pinSet
  rw [hR.answer h]
  split
  · exact .ok () (hR.drive p l (hR.operate _ h))
  · exact .failed (hR.drive p l (hR.operate _ h))
  · exact .failed (hR.operate _ h)

theorem pinRead_alike (h : R s t) : Alike R (pinRead s) (pinRead t) := by
  unfold pinRead
  rw [hR.answer h]
  split
  · exact .ok _ (hR.operate _ h)
  · exact .failed (hR.operate _ h)

theorem sample_alike (read : Bool) (h : R s t) : Alike R (sample read s) (sample read t) := by
  cases read with
  | false => exact .ok false h
  | true => exact pinRead_alike hR h

theorem pulse_alike (read : Bool) (h : R s t) : Alike R (pulse read s) (pulse read t) := by
  unfold pulse
  rw [hR.shiftRegister h]
  refine (pinSet_alike hR _ _ h).andThen fun _ _ _ h => (sample_alike hR read h).andThen fun level _ _ h =>
    (pinSet_alike hR _ _ h).andThen fun _ _ _ h => (pinSet_alike hR _ _ h).update fun _ _ _ h => ?_
  rw [hR.shiftRegister h]
  exact hR.load _ h

theorem pulses_alike (read : Bool) (n : Nat) (h : R s t) : Alike R (pulses read n s) (pulses read n t) := by
  induction n generalizing s t with
  | zero => exact .ok () h
  | succ n ih => exact (pulse_alike hR read h).andThen fun _ _ _ h => ih h

theorem bitBang_alike (tck tms tdi : Level) (h : R s t) : Alike R (bitBang tck tms tdi s) (bitBang tck tms tdi t) :=
  Alike.update ((pinSet_alike hR _ _ h).andThen fun _ _ _ h => (pinSet_alike hR _ _ h).andThen fun _ _ _ h =>
    pinSet_alike hR _ _ h) fun _ _ _ h => hR.detectRelease tms tck h

/-- A byte form runs alike from related states. -/
theorem exec_byte_alike {i : Instr} (hi : isByte i = true) {s' : State} (h : R s t) (hs : exec i s = .next s') :
    ∃ t', exec i t = .next t' ∧ R s' t' := by
  cases i
  case bb tck tms tdi => cases hs; exact ⟨_, rfl, (bitBang_alike hR tck tms tdi h).finishByte hR⟩
  case bbr tck tms tdi =>
    cases hs
    refine ⟨_, rfl, Alike.finishByte hR (Alike.update ((bitBang_alike hR tck tms tdi h).andThen fun _ _ _ h =>
      pinRead_alike hR h) fun level _ _ h => ?_)⟩
    rw [hR.params h]
    exact hR.pushResponse _ h
  case shift count => cases hs; exact ⟨_, rfl, hR.popByte (hR.openBurst count false h)⟩
  case shiftr count => cases hs; exact ⟨_, rfl, hR.popByte (hR.openBurst count true h)⟩
  case data d =>
    cases hs
    exact ⟨_, rfl, Alike.finishByte hR ((pulses_alike hR false 8 (hR.load d h)).update fun _ _ _ h =>
      hR.closeDataByte h)⟩
  case datar d =>
    cases hs
    refine ⟨_, rfl, Alike.finishByte hR ((pulses_alike hR true 8 (hR.load d h)).update fun _ _ _ h => ?_)⟩
    rw [hR.shiftRegister h]
    exact hR.closeDataByte (hR.pushResponse _ h)
  all_goals cases hi

end

/-! ## A step inside a batch -/

theorem step_inBatch_some {s : State} {i : Instr} (hb : s.inBatch) (hn : s.nextByte = some i) : step s = exec i s := by
  obtain ⟨consumed, after, hp⟩ := (phase_cases s).resolve_left hb
  rw [step_batch hp, batchTurn, hn]

theorem step_inBatch_none {s : State} (hb : s.inBatch) (hn : s.nextByte = none) :
    ∃ consumed after, step s = .next (endBatch consumed after s) := by
  obtain ⟨consumed, after, hp⟩ := (phase_cases s).resolve_left hb
  exact ⟨consumed, after, by rw [step_batch hp, batchTurn, hn]⟩

/-! ## States with the same block -/

/-- What runs from `s₀` and `t₀` have in common while a byte is handled: the block, whether their batch goes on, and
what they added to the trace and to the response stream. -/
structure SameRun (s₀ t₀ s t : State) : Prop where
  block : SameBlock s t
  running : s.inBatch ↔ t.inBatch
  trace : ∃ evs, s.trace = s₀.trace ++ evs ∧ t.trace = t₀.trace ++ evs
  responses : ∃ rs, s.responses = s₀.responses ++ rs ∧ t.responses = t₀.responses ++ rs

theorem SameRun.refl {s t : State} (h : SameBlock s t) (hs : s.inBatch) (ht : t.inBatch) : SameRun s t s t :=
  ⟨h, iff_of_true hs ht, ⟨[], by simp⟩, ⟨[], by simp⟩⟩

theorem SameBlock.answerAt {s t : State} (h : SameBlock s t) (n : Nat) : t.answerAt n = s.answerAt n :=
  answerAt_congr h.pinAnswers h.pinOps n

theorem SameBlock.nextByte {s t : State} (h : SameBlock s t) : t.nextByte = s.nextByte := by
  have hfree : t.outFree = s.outFree := by rw [State.outFree, State.outLen, h.params, h.outbound]; rfl
  have hsel : t.selector = s.selector := by rw [State.selector, h.shiftRemaining, h.readEnabled]; rfl
  unfold State.nextByte
  rw [h.inbound, hfree, hsel, h.params]

theorem countByte_inBatch (s : State) : s.popByte.inBatch ↔ s.inBatch := by
  unfold State.inBatch
  rw [State.popByte_phase]
  cases s.phase with
  | idle => exact Iff.rfl
  | batch consumed after => exact iff_of_true nofun nofun

/-- The operations read the block and the lists they extend, and nothing else. -/
theorem sameRun_byteSimulation (s₀ t₀ : State) : ByteSimulation (SameRun s₀ t₀) where
  params h := h.block.params
  shiftRegister h := h.block.shiftRegister
  answer h := h.block.answerAt 0
  operate e h := by
    obtain ⟨b, running, ⟨evs, hs, ht⟩, responses⟩ := h
    exact ⟨{ b with pinAnswers := congrArg List.tail b.pinAnswers, pinOps := congrArg (· + 1) b.pinOps }, running,
      ⟨evs ++ [e], by simp [hs], by simp [ht]⟩, responses⟩
  drive p l h := { h with block := { h.block with pins := congrArg (Pins.drive · p l) h.block.pins } }
  load r h := { h with block := { h.block with shiftRegister := rfl } }
  detectRelease tms tck h := by
    refine { h with block := { h.block with tap := ?_, clockLatched := rfl } }
    rw [detectRelease_tap, detectRelease_tap, State.releases, State.releases, h.block.tap, h.block.clockLatched]
  openBurst count read h := { h with block := { h.block with shiftRemaining := rfl, readEnabled := rfl } }
  closeDataByte h := { h with block := { h.block with
    clockLatched := rfl, shiftRemaining := congrArg countDown h.block.shiftRemaining } }
  pushResponse b h := by
    obtain ⟨block, running, trace, ⟨rs, hs, ht⟩⟩ := h
    exact ⟨{ block with outbound := congrArg (· ++ [b]) block.outbound }, running, trace,
      ⟨rs ++ [b], by simp [hs], by simp [ht]⟩⟩
  popByte h := { h with
    block := { h.block with inbound := congrArg List.tail h.block.inbound }
    running := (countByte_inBatch _).trans (h.running.trans (countByte_inBatch _).symm) }
  raisePinFault h := { h with block := { h.block with tap := rfl }, running := Iff.rfl }

/-- The end of a batch touches nothing of the block. -/
theorem endBatch_sameBlock (consumed : Nat) (after : Option WriteCall) (s : State) :
    SameBlock s (endBatch consumed after s) := by
  cases after <;> exact ⟨rfl, rfl, rfl, rfl, rfl, rfl, rfl, rfl, rfl, rfl, rfl⟩

theorem SameBlock.symm {s t : State} (h : SameBlock s t) : SameBlock t s :=
  ⟨h.params.symm, h.tap.symm, h.shiftRemaining.symm, h.shiftRegister.symm, h.readEnabled.symm, h.clockLatched.symm,
    h.inbound.symm, h.outbound.symm, h.pins.symm, h.pinAnswers.symm, h.pinOps.symm⟩

theorem SameBlock.trans {s t u : State} (h : SameBlock s t) (h' : SameBlock t u) : SameBlock s u :=
  ⟨h'.params.trans h.params, h'.tap.trans h.tap, h'.shiftRemaining.trans h.shiftRemaining,
    h'.shiftRegister.trans h.shiftRegister, h'.readEnabled.trans h.readEnabled, h'.clockLatched.trans h.clockLatched,
    h'.inbound.trans h.inbound, h'.outbound.trans h.outbound, h'.pins.trans h.pins,
    h'.pinAnswers.trans h.pinAnswers, h'.pinOps.trans h.pinOps⟩

theorem endBatch_idle (consumed : Nat) (after : Option WriteCall) (s : State) :
    ¬ (endBatch consumed after s).inBatch := by
  cases after <;> exact fun h => h rfl

theorem endBatch_sameRun {s t : State} (h : SameBlock s t) (c₁ c₂ : Nat) (a₁ a₂ : Option WriteCall) :
    SameRun s t (endBatch c₁ a₁ s) (endBatch c₂ a₂ t) where
  block := (endBatch_sameBlock c₁ a₁ s).symm.trans (h.trans (endBatch_sameBlock c₂ a₂ t))
  running := iff_of_false (endBatch_idle c₁ a₁ s) (endBatch_idle c₂ a₂ t)
  trace := ⟨[], by rw [(endBatch_blockKept ..).trace, (endBatch_blockKept ..).trace]; simp⟩
  responses := ⟨[], by rw [(endBatch_blockKept ..).responses, (endBatch_blockKept ..).responses]; simp⟩

/-- Inside a batch a step runs alike from two states with the same block. -/
theorem step_sameRun {s t s' : State} (h : SameBlock s t) (hs : s.inBatch) (ht : t.inBatch) (hx : step s = .next s') :
    ∃ t', step t = .next t' ∧ SameRun s t s' t' := by
  cases hn : s.nextByte with
  | none =>
    obtain ⟨_, _, hs⟩ := step_inBatch_none hs hn
    obtain ⟨_, _, ht⟩ := step_inBatch_none ht (h.nextByte.trans hn)
    rw [hs] at hx
    cases hx
    exact ⟨_, ht, endBatch_sameRun h ..⟩
  | some i =>
    rw [step_inBatch_some hs hn] at hx
    rw [step_inBatch_some ht (h.nextByte.trans hn)]
    exact exec_byte_alike (sameRun_byteSimulation s t) (isByte_of_nextByte hn) (.refl h hs ht) hx

/-- Settles O40: both ends of a batch keep the block, and a byte reads nothing else. -/
theorem batchBoundariesLeaveNoTrace : Obligations.BatchBoundariesLeaveNoTrace := by
  refine ⟨fun s consumed after => ⟨endBatch_sameBlock consumed after s, fun htap => ?_⟩, fun s t s' h hs ht hx => ?_⟩
  · rw [beginBatch_running htap]
    exact ⟨rfl, rfl, rfl, rfl, rfl, rfl, rfl, rfl, rfl, rfl, rfl⟩
  · obtain ⟨t', hstep, block, running, ⟨evs, hse, hte⟩, rs, hsr, htr⟩ := step_sameRun h hs ht hx
    exact ⟨t', evs, rs, hstep, block, running, hse, hte, hsr, htr⟩

/-! ## States that differ in the belief about the TAP controller -/

/-- The state with another belief about the TAP controller. -/
def State.believe (s : State) (tap : TapState) (latched : Bool) : State :=
  { s with tap := tap, clockLatched := latched }

theorem sameButTap_iff {s t : State} : SameButTap s t ↔ ∃ tap latched,
    t = s.believe tap latched ∧ (tap = .fault ↔ s.tap = .fault) := by
  refine ⟨fun ⟨ht, hf⟩ => ⟨_, _, ht, hf⟩, ?_⟩
  rintro ⟨tap, latched, rfl, hf⟩
  exact ⟨rfl, hf⟩

/-- No transition leads to `Fault` or out of it (40_tap_advance.md R110, R127). -/
theorem detectRelease_fault_iff (tms tck : Level) (s : State) :
    (detectRelease tms tck s).tap = .fault ↔ s.tap = .fault := by
  rw [detectRelease_tap]
  split
  · cases s.tap <;> simp [TapState.advance]
  · exact Iff.rfl

section
variable {s t : State}

/-- The belief is read by the release detector alone, which writes the belief alone. -/
theorem sameButTap_byteSimulation : ByteSimulation SameButTap where
  params h := by obtain ⟨_, _, rfl, -⟩ := sameButTap_iff.mp h; rfl
  shiftRegister h := by obtain ⟨_, _, rfl, -⟩ := sameButTap_iff.mp h; rfl
  answer h := by obtain ⟨_, _, rfl, -⟩ := sameButTap_iff.mp h; rfl
  operate e h := by obtain ⟨_, _, rfl, hf⟩ := sameButTap_iff.mp h; exact ⟨rfl, hf⟩
  drive p l h := by obtain ⟨_, _, rfl, hf⟩ := sameButTap_iff.mp h; exact ⟨rfl, hf⟩
  load r h := by obtain ⟨_, _, rfl, hf⟩ := sameButTap_iff.mp h; exact ⟨rfl, hf⟩
  detectRelease tms tck h := by
    obtain ⟨_, _, rfl, hf⟩ := sameButTap_iff.mp h
    exact ⟨rfl, (detectRelease_fault_iff ..).trans (hf.trans (detectRelease_fault_iff ..).symm)⟩
  openBurst count read h := by obtain ⟨_, _, rfl, hf⟩ := sameButTap_iff.mp h; exact ⟨rfl, hf⟩
  closeDataByte h := by obtain ⟨_, _, rfl, hf⟩ := sameButTap_iff.mp h; exact ⟨rfl, hf⟩
  pushResponse b h := by obtain ⟨_, _, rfl, hf⟩ := sameButTap_iff.mp h; exact ⟨rfl, hf⟩
  popByte h := by obtain ⟨_, _, rfl, hf⟩ := sameButTap_iff.mp h; exact ⟨rfl, hf⟩
  raisePinFault h := by obtain ⟨_, _, rfl, -⟩ := sameButTap_iff.mp h; exact ⟨rfl, Iff.rfl⟩

theorem SameButTap.fullReset (h : SameButTap s t) : SameButTap s.fullReset t.fullReset := by
  obtain ⟨_, _, rfl, -⟩ := sameButTap_iff.mp h; exact ⟨rfl, Iff.rfl⟩

theorem SameButTap.setAgenda (h : SameButTap s t) (rest : List Call) :
    SameButTap { s with agenda := rest } { t with agenda := rest } := by
  obtain ⟨_, _, rfl, hf⟩ := sameButTap_iff.mp h; exact ⟨rfl, hf⟩

theorem SameButTap.endBatch (h : SameButTap s t) (consumed : Nat) (after : Option WriteCall) :
    SameButTap (endBatch consumed after s) (endBatch consumed after t) := by
  obtain ⟨_, _, rfl, hf⟩ := sameButTap_iff.mp h
  cases after <;> exact ⟨rfl, hf⟩

/-- A call of `process` asks only whether `tap` is `Fault`. -/
theorem SameButTap.beginBatch (h : SameButTap s t) (after : Option WriteCall) :
    SameButTap (beginBatch after s) (beginBatch after t) := by
  by_cases hs : s.tap = .fault
  · obtain ⟨_, _, rfl, hf⟩ := sameButTap_iff.mp h
    rw [beginBatch_faulted hs, beginBatch_faulted (hf.mpr hs)]
    exact ⟨rfl, hf⟩
  · obtain ⟨_, _, rfl, hf⟩ := sameButTap_iff.mp h
    rw [beginBatch_running hs, beginBatch_running (fun ht => hs (hf.mp ht))]
    exact ⟨rfl, hf⟩

/-- The framer does not look at the belief. -/
theorem framerRead_believe (offered : List Byte) (s : State) (tap : TapState) (latched : Bool) :
    framerRead offered (s.believe tap latched) = (framerRead offered s).believe tap latched := by
  by_cases hs : s.params.inCap ≤ s.inLen ∨ offered = []
  · rw [framerRead_refused hs]
    exact framerRead_refused (s := s.believe tap latched) hs
  · obtain ⟨hfull, hne⟩ := not_or.mp hs
    have hroom := Nat.lt_of_not_le hfull
    rw [framerRead_takes hroom hne]
    exact framerRead_takes (s := s.believe tap latched) hroom hne

theorem framerWrite_believe (w : WriteCall) (s : State) (tap : TapState) (latched : Bool) :
    framerWrite w (s.believe tap latched) = (framerWrite w s).believe tap latched := by
  cases hm : s.mustSend w.heartbeat with
  | false => rw [framerWrite_skips hm]; exact framerWrite_skips (s := s.believe tap latched) hm
  | true =>
    match ha : s.accepted w with
    | 0 => rw [framerWrite_zero hm ha]; exact framerWrite_zero (s := s.believe tap latched) hm ha
    | 1 => rw [framerWrite_one hm ha]; exact framerWrite_one (s := s.believe tap latched) hm ha
    | k + 2 => rw [framerWrite_many hm ha]; exact framerWrite_many (s := s.believe tap latched) hm ha

theorem SameButTap.framerRead (h : SameButTap s t) (offered : List Byte) :
    SameButTap (framerRead offered s) (framerRead offered t) := by
  obtain ⟨tap, latched, rfl, hf⟩ := sameButTap_iff.mp h
  rw [framerRead_believe]
  exact sameButTap_iff.mpr ⟨_, _, rfl, by rw [(framerRead_blockKept ..).tap]; exact hf⟩

theorem SameButTap.framerWrite (h : SameButTap s t) (w : WriteCall) :
    SameButTap (framerWrite w s) (framerWrite w t) := by
  obtain ⟨tap, latched, rfl, hf⟩ := sameButTap_iff.mp h
  rw [framerWrite_believe]
  exact sameButTap_iff.mpr ⟨_, _, rfl, by rw [(framerWrite_blockKept ..).tap]; exact hf⟩

theorem SameButTap.callEffect (h : SameButTap s t) (c : Call) : SameButTap (c.effect s) (c.effect t) := by
  cases c with
  | process => exact h.beginBatch none
  | read offered => exact h.framerRead offered
  | write w => exact h.framerWrite w
  | poll offered w => exact (h.framerRead offered).beginBatch (some w)
  | forcedReset => exact h.fullReset
  | bringUp levels => obtain ⟨_, _, rfl, -⟩ := sameButTap_iff.mp h; exact ⟨rfl, Iff.rfl⟩
  | control _ | busReset | lookup _ => exact h

/-- Every instruction runs alike from two states that differ in the belief only. -/
theorem SameButTap.exec {i : Instr} {s' : State} (h : SameButTap s t) (hs : exec i s = .next s') :
    ∃ t', exec i t = .next t' ∧ SameButTap s' t' := by
  cases hi : isByte i with
  | true => exact exec_byte_alike sameButTap_byteSimulation hi h hs
  | false =>
    obtain ⟨_, _, rfl, hf⟩ := sameButTap_iff.mp h
    cases i
    case bb | bbr | shift | shiftr | data | datar => cases hi
    case reset0 | busReset => cases hs; exact ⟨_, rfl, rfl, Iff.rfl⟩
    all_goals cases hs; exact ⟨_, rfl, rfl, hf⟩

end

/-- Settles O41: the two states are in the same case of a step, and each case keeps the relation. -/
theorem tapIsABelief : Obligations.TapIsABelief := by
  intro s t s' h hx
  obtain ⟨_, _, ht, -⟩ := sameButTap_iff.mp h
  have hphase : t.phase = s.phase := by rw [ht]; rfl
  have howed : t.resetOwed = s.resetOwed := by rw [ht]; rfl
  have hagenda : t.agenda = s.agenda := by rw [ht]; rfl
  have hnext : t.nextByte = s.nextByte := by rw [ht]; rfl
  have hinstr : ∀ (c : Call) rest, c.instr { t with agenda := rest } = c.instr { s with agenda := rest } := by
    intro c rest
    rw [ht]
    cases c <;> rfl
  rcases step_cases s with ⟨_, _, i, hp, hn, hs⟩ | ⟨_, _, hp, hn, hs⟩ | ⟨hp, hf, hs⟩ | ⟨hp, hf, ha, hs⟩ |
    ⟨c, rest, i, hp, hf, ha, hc, hs⟩ | ⟨c, rest, hp, hf, ha, hc, hs⟩ <;> rw [hs] at hx
  · rw [step_batch (hphase.trans hp), batchTurn, hnext, hn]
    exact h.exec hx
  · rw [step_batch (hphase.trans hp), batchTurn, hnext, hn]
    cases hx
    exact ⟨_, rfl, h.endBatch ..⟩
  · rw [step_idle (hphase.trans hp), callerTurn_forces (howed.trans hf)]
    cases hx
    exact ⟨_, rfl, h.fullReset⟩
  · rw [step_idle (hphase.trans hp), callerTurn_nil (howed.trans hf) (hagenda.trans ha)]
    cases hx
    exact ⟨_, rfl, h.beginBatch none⟩
  · rw [step_idle (hphase.trans hp), callerTurn_cons (howed.trans hf) (hagenda.trans ha), perform, hinstr, hc]
    exact (h.setAgenda rest).exec hx
  · rw [step_idle (hphase.trans hp), callerTurn_cons (howed.trans hf) (hagenda.trans ha), perform, hinstr, hc]
    cases hx
    exact ⟨_, rfl, (h.setAgenda rest).callEffect c⟩

end Sys2Proof.Machine
end

