-- ==== Sys2Proof/Proofs/TapGraph.lean ====
section
/-! The whole TAP table: its 32 rows as instructions, the one table behind lookups and releases, and the properties of
the graph (40_tap_advance.md R110 to R128). -/

namespace Sys2Proof.Machine

/-! ## The rows as instructions -/

/-- A row reports the successor of its state under its mode bit and changes nothing else (R110). -/
theorem exec_advanceInstr (s : State) (c : TapCtl) (m : Level) :
    exec (advanceInstr c m) s = .next (s.report (.lookup (advance c m))) := by
  cases c <;> cases m <;> rfl

/-- Settles O7, from what a row reports. -/
theorem advanceRowsOfTheDrColumn : Obligations.AdvanceRowsOfTheDrColumn := fun s =>
  ⟨exec_advanceInstr s .reset false, exec_advanceInstr s .reset true,
    exec_advanceInstr s .runIdle false, exec_advanceInstr s .runIdle true,
    exec_advanceInstr s .selectDR false, exec_advanceInstr s .selectDR true,
    exec_advanceInstr s .captureDR false, exec_advanceInstr s .captureDR true,
    exec_advanceInstr s .shiftDR false, exec_advanceInstr s .shiftDR true,
    exec_advanceInstr s .exit1DR false, exec_advanceInstr s .exit1DR true,
    exec_advanceInstr s .pauseDR false, exec_advanceInstr s .pauseDR true,
    exec_advanceInstr s .exit2DR false, exec_advanceInstr s .exit2DR true,
    exec_advanceInstr s .updateDR false, exec_advanceInstr s .updateDR true⟩

/-- Settles O8, from what a row reports. -/
theorem advanceRowsOfTheIrColumn : Obligations.AdvanceRowsOfTheIrColumn := fun s =>
  ⟨exec_advanceInstr s .selectIR false, exec_advanceInstr s .selectIR true,
    exec_advanceInstr s .captureIR false, exec_advanceInstr s .captureIR true,
    exec_advanceInstr s .shiftIR false, exec_advanceInstr s .shiftIR true,
    exec_advanceInstr s .exit1IR false, exec_advanceInstr s .exit1IR true,
    exec_advanceInstr s .pauseIR false, exec_advanceInstr s .pauseIR true,
    exec_advanceInstr s .exit2IR false, exec_advanceInstr s .exit2IR true,
    exec_advanceInstr s .updateIR false, exec_advanceInstr s .updateIR true⟩

/-- Settles O9: a row, its pattern and a release all go through `advance`. -/
theorem lookupsAndReleasesShareOneTable : Obligations.LookupsAndReleasesShareOneTable := by
  intro s c m
  refine ⟨exec_advanceInstr s c m, decodePattern_patternOf c m, fun hc hlatched => ?_⟩
  rw [detectRelease_tap_running m false hc, if_pos ⟨hlatched, rfl⟩]

/-! ## The graph -/

/-- Five clocks with mode bit 1 lead to `Reset` from every state (R128 (c)). -/
theorem iterate_five_modeHigh (c : TapCtl) : (fun c => advance c true)^[5] c = .reset := by
  cases c <;> rfl

theorem iterate_modeHigh_of_five_le (c : TapCtl) {n : Nat} (hn : 5 ≤ n) :
    (fun c => advance c true)^[n] c = .reset := by
  obtain ⟨k, rfl⟩ := Nat.exists_eq_add_of_le' hn
  rw [Function.iterate_add_apply, iterate_five_modeHigh, iterate_advance_of_selfLoop advance_reset_true]

/-- Mode bits that lead from `Reset` to a state (R128 (e)). -/
def pathTo : TapCtl → List Level
  | .reset => []
  | .runIdle => [false]
  | .selectDR => [false, true]
  | .captureDR => [false, true, false]
  | .shiftDR => [false, true, false, false]
  | .exit1DR => [false, true, false, true]
  | .pauseDR => [false, true, false, true, false]
  | .exit2DR => [false, true, false, true, false, true]
  | .updateDR => [false, true, false, true, true]
  | .selectIR => [false, true, true]
  | .captureIR => [false, true, true, false]
  | .shiftIR => [false, true, true, false, false]
  | .exit1IR => [false, true, true, false, true]
  | .pauseIR => [false, true, true, false, true, false]
  | .exit2IR => [false, true, true, false, true, false, true]
  | .updateIR => [false, true, true, false, true, true]

theorem foldl_advance_pathTo (c : TapCtl) : (pathTo c).foldl advance .reset = c := by
  cases c <;> rfl

/-- Settles O10: each property is read off the table state by state, and the runs of clocks off the self-loop at
`Reset`. -/
theorem tapTableProperties : Obligations.TapTableProperties := by
  refine ⟨fun c n hn => iterate_modeHigh_of_five_le c hn, fun c => ?_, fun c m => ?_, fun c m => ?_,
    fun c => ⟨pathTo c, foldl_advance_pathTo c⟩, fun c hc m => ?_, fun m => ?_, rfl⟩
  case refine_1 => cases c <;> decide
  case refine_2 => cases c <;> cases m <;> decide
  case refine_3 => cases c <;> cases m <;> decide
  case refine_4 =>
    simp only [List.mem_cons, List.not_mem_nil, or_false] at hc
    obtain rfl | rfl | rfl | rfl | rfl := hc <;> cases m <;> rfl
  case refine_5 => cases m <;> rfl

end Sys2Proof.Machine
end

