-- ==== Sys2Proof/Proofs/Batch.lean ====
section
/-! The batch loop: which instruction a step runs, where a batch stops, that it ends and accounts for its bytes, and two
streams of bytes run through it (44_batch_processing.md R200 to R209, 43_data_bytes.md R187, 70_reset_and_hazards.md
R307). -/

namespace Sys2Proof.Machine

/-! ## The instruction a step runs -/

section
variable {s : State}

theorem nextByte_cons {b : Byte} {rest : List Byte} (hi : s.inbound = b :: rest) (ho : s.outFree ≠ 0) :
    s.nextByte = some (decode s.params s.selector (.byte b)) := by
  rw [State.nextByte, hi]
  exact if_neg ho

theorem step_byte {consumed : Nat} {after : Option WriteCall} {b : Byte} {rest : List Byte}
    (hp : s.phase = .batch consumed after) (hi : s.inbound = b :: rest) (ho : s.outFree ≠ 0) :
    step s = exec (decode s.params s.selector (.byte b)) s := by
  rw [step_batch hp, batchTurn, nextByte_cons hi ho]

theorem nextByte_eq_none (h : s.inbound = [] ∨ s.outFree = 0) : s.nextByte = none := by
  unfold State.nextByte
  split
  · rfl
  · next hi =>
    rw [hi] at h
    exact if_pos (h.resolve_left nofun)

theorem step_call {c : Call} {rest : List Call} (hp : s.phase = .idle) (hf : s.resetOwed = false)
    (ha : s.agenda = c :: rest) : step s = perform c { s with agenda := rest } := by
  rw [step_idle hp, callerTurn_cons hf ha]

end

/-- Settles O36: a byte goes through `nextByte`, a call through the instruction it hands over. -/
theorem stepRunsDecodedInstr : Obligations.StepRunsDecodedInstr := fun _ =>
  ⟨fun _ _ _ _ hp hi ho => step_byte hp hi ho, fun _ _ hp hf ha => step_call hp hf ha,
    fun _ hp hf ha => step_call hp hf ha, fun _ _ hp hf ha => step_call hp hf ha⟩

/-- Settles O37: nothing is taken, so the turn is the end of the batch. -/
theorem batchStopsWithoutByteOrRoom : Obligations.BatchStopsWithoutByteOrRoom := by
  intro s consumed h
  refine ⟨fun hp => ?_, fun w hp => ?_⟩ <;> rw [step_batch hp, batchTurn, nextByte_eq_none h] <;> rfl

/-- Settles O38: a faulted block answers a call of `process`, and a step that is neither a byte nor a reset leaves the
block alone. -/
theorem faultedBlockRefusesWork : Obligations.FaultedBlockRefusesWork := by
  intro s htap
  refine ⟨fun after => beginBatch_faulted htap after, fun rest hp hf ha => ?_, fun t hp hr h => ?_⟩
  · have hrefused := beginBatch_faulted (s := { s with agenda := rest }) htap none
    have hstep : step s = .next (State.returnPinFault { s with agenda := rest }) :=
      (step_call hp hf ha).trans (congrArg Host.Outcome.next hrefused)
    rw [hstep]
    simp only [State.returnPinFault, hp]
  · obtain ⟨hb, -⟩ | hreset | hk := step_block_cases h
    · exact absurd hp hb
    · exact absurd hreset hr
    · exact ⟨hk.tap.trans htap, hk.shiftRemaining, hk.shiftRegister, hk.readEnabled, hk.clockLatched, hk.trace, hk.pins,
        hk.responses, hk.pinOps⟩

/-! ## A batch ends -/

/-- From `s`, in a batch that has consumed `consumed` bytes, `k` steps lead to `t`, where the batch is over: it handled
`n` bytes and pushed `rs` (R204, R206, R209). -/
structure BatchRun (s : State) (consumed k : Nat) (t : State) (n : Nat) (rs : List Byte) : Prop where
  steps : k ≤ s.inLen + 1
  run : Host.Core.run core k s = .next t
  idle : t.phase = .idle
  handled : n ≤ s.inLen
  inbound : t.inbound = s.inbound.drop n
  pinOps : t.pinOps ≤ s.pinOps + 32 * s.inLen
  responses : t.responses = s.responses ++ rs
  outbound : t.outbound = s.outbound ++ rs
  few : rs.length ≤ n
  result : (t.reports = s.reports ++ [.done (consumed + n)] ∧ t.tap ≠ .fault ∧ (t.inbound = [] ∨ t.outFree = 0)) ∨
    (t.reports = s.reports ++ [.condition .pinFault] ∧ t.tap = .fault ∧ n < s.inLen)

section
variable {s t u : State} {consumed k n : Nat} {rs rs' : List Byte}

theorem run_one {s t : State} (h : step s = .next t) : Host.Core.run core 1 s = .next t := run_succ h 0

/-- A batch with nothing to take ends at once. -/
theorem batchRun_stop {after : Option WriteCall} (hp : s.phase = .batch consumed after) (htap : s.tap ≠ .fault)
    (hn : s.nextByte = none) : BatchRun s consumed 1 (endBatch consumed after s) 0 [] := by
  have hstep : step s = .next (endBatch consumed after s) := by rw [step_batch hp, batchTurn, hn]
  obtain ⟨agenda, hend⟩ := endBatch_eq consumed after s
  rw [hend] at hstep ⊢
  exact
    { steps := Nat.le_add_left 1 _
      run := run_one hstep
      idle := rfl
      handled := Nat.zero_le _
      inbound := rfl
      pinOps := Nat.le_add_right ..
      responses := (List.append_nil _).symm
      outbound := (List.append_nil _).symm
      few := Nat.le_refl 0
      result := .inl ⟨rfl, htap, nextByte_none hn⟩ }

/-- A byte that fails ends its batch. -/
theorem batchRun_fault {evs : List PinEvent} {e : PinEvent} (hstep : step s = .next t) (hd : ByteFailed s t evs e)
    (hne : 0 < s.inLen) : BatchRun s consumed 1 t 0 [] where
  steps := Nat.le_add_left 1 _
  run := run_one hstep
  idle := hd.phase
  handled := Nat.zero_le _
  inbound := hd.inbound
  pinOps := by
    have hshort := hd.short
    rw [hd.pinOps]
    omega
  responses := by rw [hd.responses, List.append_nil]
  outbound := by rw [hd.outbound, List.append_nil]
  few := Nat.le_refl 0
  result := .inr ⟨hd.reports, hd.tap, hne⟩

/-- A byte that completes puts one byte more in front of the rest of its batch. -/
theorem BatchRun.cons {evs : List PinEvent} (h : BatchRun t (consumed + 1) k u n rs') (hstep : step s = .next t)
    (hd : ByteDone s t evs rs) (hlen : s.inLen = t.inLen + 1) :
    BatchRun s consumed (k + 1) u (n + 1) (rs ++ rs') where
  steps := by have hk := h.steps; omega
  run := (run_succ hstep k).trans h.run
  idle := h.idle
  handled := by have hn := h.handled; omega
  inbound := by rw [h.inbound, hd.inbound, List.drop_tail]
  pinOps := by
    have hops := h.pinOps
    have hshort := hd.short
    rw [hd.pinOps] at hops
    omega
  responses := by rw [h.responses, hd.responses, List.append_assoc]
  outbound := by rw [h.outbound, hd.outbound, List.append_assoc]
  few := by
    have hone := hd.one
    have hfew := h.few
    rw [List.length_append]
    omega
  result := by
    have hresult := h.result
    rw [hd.reports, Nat.add_assoc, Nat.add_comm 1 n] at hresult
    exact hresult.imp_right fun ⟨hreports, htap, hn⟩ => ⟨hreports, htap, by omega⟩

end

/-- A batch ends, by induction on the bytes it has to take. -/
theorem batch_ends : ∀ (len : Nat) (s : State) (consumed : Nat) (after : Option WriteCall), s.inLen = len →
    s.tap ≠ .fault → s.phase = .batch consumed after → ∃ k t n rs, BatchRun s consumed k t n rs := by
  intro len
  induction len with
  | zero =>
    intro s consumed after hlen htap hp
    exact ⟨_, _, _, _, batchRun_stop hp htap (nextByte_eq_none (.inl (List.length_eq_zero_iff.mp hlen)))⟩
  | succ len ih =>
    intro s consumed after hlen htap hp
    cases hn : s.nextByte with
    | none => exact ⟨_, _, _, _, batchRun_stop hp htap hn⟩
    | some i =>
      obtain ⟨t, hexec, hd⟩ := byte_cases i (isByte_of_nextByte hn) s
      have hstep : step s = .next t := by rw [step_batch hp, batchTurn, hn, ← hexec]
      rcases hd with ⟨evs, rs, hd⟩ | ⟨evs, e, hd⟩
      · have hlen' : t.inLen = len := by
          rw [State.inLen, hd.inbound, List.length_tail]
          exact Nat.sub_eq_of_eq_add hlen
        have hp' : t.phase = .batch (consumed + 1) after := by rw [hd.phase, hp]; rfl
        obtain ⟨k, u, n, rs', hrun⟩ := ih t (consumed + 1) after hlen' (hd.running htap) hp'
        exact ⟨_, _, _, _, hrun.cons hstep hd (by rw [hlen, hlen'])⟩
      · exact ⟨_, _, _, _, batchRun_fault hstep hd (by omega)⟩

/-- Settles O39, from the run of a batch. -/
theorem batchEndsAndAccounts : Obligations.BatchEndsAndAccounts := by
  intro s consumed after htap hp
  obtain ⟨k, t, n, rs, h⟩ := batch_ends s.inLen s consumed after rfl htap hp
  exact ⟨k, t, n, rs, h.steps, h.run, h.idle, h.handled, h.inbound, h.pinOps, h.responses, h.outbound, h.few, h.result⟩

/-! ## SHIFTR 1 and one data byte (43_data_bytes.md R187) -/

/-- Eight equal samples make the byte of that level. -/
theorem samplesByte_held (held : Level) : samplesByte (fun _ => held) = if held then 0xFF else 0x00 := by
  cases held <;> decide

/-- `0xC1` is `SHIFTR 1`. -/
theorem decodeCommand_C1 (p : Params) : decodeCommand p 0xC1 = .shiftr 1 := rfl

/-- Settles O20: the first step opens a burst of one byte with READ, the second is `DATAR` with eight equal samples. -/
theorem heldInputGivesOneResponse : Obligations.HeldInputGivesOneResponse := by
  intro s consumed after d rest held hp hremaining hinbound hroom hdone hheld
  have hopen : step s = .next (openBurst 1 true s).popByte := by
    rw [step_byte hp hinbound hroom, decode_byte_command s.params (sel := s.selector) hremaining, decodeCommand_C1,
      exec_shiftr]
  have hphase : (openBurst 1 true s).popByte.phase = .batch (consumed + 1) after := by
    rw [State.popByte_phase, openBurst_phase, hp]; rfl
  have hnext : (openBurst 1 true s).popByte.inbound = d :: rest := by
    rw [State.popByte_inbound, openBurst_inbound, hinbound, List.tail_cons]
  have hdatar := exec_datar_done (s := (openBurst 1 true s).popByte) d hdone
  have hsamples : (samplesByte fun i => s.tdoAt (4 * i + 1)) = if held then 0xFF else 0x00 := by
    rw [← samplesByte_held]
    exact samplesByte_echo fun i hi => by rw [hheld i hi, samplesByte_getLsbD _ hi]
  refine ⟨_, (run_succ hopen 1).trans (run_one ((step_byte hphase hnext hroom).trans hdatar)), ?_, ?_, ?_⟩
  · exact congrArg (fun b => s.responses ++ [b]) hsamples
  · exact (by decide : countDown 1 = 0)
  · exact congrArg List.tail hnext

/-! ## Clocks with mode-select high (70_reset_and_hazards.md R307) -/

/-- A running batch between two bit-bang clocks: the clock is unlatched, no burst is open, there is room. -/
structure ClockReady (s : State) (consumed : Nat) (after : Option WriteCall) (c : TapCtl) : Prop where
  legal : s.params.legal = true
  phase : s.phase = .batch consumed after
  tap : s.tap = .running c
  unlatched : s.clockLatched = false
  noBurst : s.shiftRemaining = 0
  room : s.outFree ≠ 0

/-- The two bytes of one clock with mode-select high, data-in low. -/
def clockBytes (p : Params) : List Byte := [bitBangByte p false true true false, bitBangByte p false false true false]

theorem step_bitBangByte {s : State} {consumed : Nat} {after : Option WriteCall} {tck tms tdi : Level}
    {rest : List Byte} (hlegal : s.params.legal = true) (hp : s.phase = .batch consumed after)
    (hremaining : s.shiftRemaining = 0) (hroom : s.outFree ≠ 0)
    (hi : s.inbound = bitBangByte s.params false tck tms tdi :: rest) (hdone : s.allDone 3 = true) :
    step s = .next (detectRelease tms tck (s.made (bitBangEvents tck tms tdi))).popByte := by
  rw [step_byte hp hi hroom, decode_byte_command s.params (sel := s.selector) hremaining,
    decodeCommand_bitBangByte hlegal]
  exact exec_bb_done tck tms tdi hdone

/-- After the two bytes of a clock: the drives and the detector of each, and both bytes popped. -/
def State.clocked (s : State) : State :=
  (detectRelease true false ((detectRelease true true (s.made (bitBangEvents true true false))).popByte.made
    (bitBangEvents false true false))).popByte

section
variable {s : State} {consumed : Nat} {after : Option WriteCall} {c : TapCtl} {rest : List Byte}

theorem ClockReady.run (h : ClockReady s consumed after c) (hi : s.inbound = clockBytes s.params ++ rest)
    (hdone : s.allDone 6 = true) : Host.Core.run core 2 s = .next s.clocked := by
  have hfirst := step_bitBangByte h.legal h.phase h.noBurst h.room hi (allDone_of_le (by omega) hdone)
  refine (run_succ hfirst 1).trans (run_one (step_bitBangByte (consumed := consumed + 1) (after := after) (rest := rest)
    h.legal ?_ h.noBurst h.room ?_ ?_))
  · rw [State.popByte_phase, detectRelease_phase, State.made_phase, h.phase]; rfl
  · rw [State.popByte_inbound, detectRelease_inbound, State.made_inbound, hi]; rfl
  · exact allDone_after (s := s) (m := 3) (fun k => answerAt_drop s 3 k rfl rfl) hdone

/-- A clock is one release with mode-select high. -/
theorem ClockReady.clocked (h : ClockReady s consumed after c) :
    ClockReady s.clocked (consumed + 2) after (advance c true) where
  legal := h.legal
  phase := by
    have hp : s.clocked.phase = s.phase.countByte.countByte := rfl
    rw [hp, h.phase]; rfl
  tap := by
    have ht : s.clocked.tap = (if s.clockLatched && !true then s.tap.advance true else s.tap).advance true := rfl
    rw [ht, h.unlatched, h.tap]; rfl
  unlatched := rfl
  noBurst := h.noBurst
  room := h.room

theorem clocked_inbound (hi : s.inbound = clockBytes s.params ++ rest) : s.clocked.inbound = rest := by
  have ht : s.clocked.inbound = s.inbound.tail.tail := rfl
  rw [ht, hi]; rfl

theorem clocked_answerAt (s : State) (k : Nat) : s.clocked.answerAt k = s.answerAt (6 + k) := by
  refine answerAt_drop s 6 k ?_ rfl
  exact List.drop_drop

end

theorem run_add {s t u : State} {m n : Nat} (h : Host.Core.run core m s = .next t)
    (h' : Host.Core.run core n t = .next u) : Host.Core.run core (n + m) s = .next u := by
  induction m generalizing s with
  | zero => cases h; exact h'
  | succ m ih =>
    obtain ⟨v, hv⟩ := everyStepGoesOn s
    rw [run_succ hv] at h
    exact (run_succ hv (n + m)).trans (ih h)

/-- `n` clocks with mode-select high, by induction on their number. -/
theorem run_clocks (n : Nat) : ∀ (s : State) (consumed : Nat) (after : Option WriteCall) (c : TapCtl)
    (rest : List Byte), ClockReady s consumed after c → s.allDone (6 * n) = true →
    s.inbound = (List.replicate n (clockBytes s.params)).flatten ++ rest →
    ∃ t, Host.Core.run core (2 * n) s = .next t ∧
      ClockReady t (consumed + 2 * n) after ((fun c => advance c true)^[n] c) ∧ t.inbound = rest ∧
      t.outbound = s.outbound ∧ t.pinOps = s.pinOps + 6 * n := by
  induction n with
  | zero => exact fun s consumed after c rest h _ hi => ⟨s, rfl, h, hi, rfl, rfl⟩
  | succ n ih =>
    intro s consumed after c rest h hdone hi
    rw [List.replicate_succ, List.flatten_cons, List.append_assoc] at hi
    have hdone' : s.allDone (6 + 6 * n) = true := by rwa [Nat.mul_succ, Nat.add_comm] at hdone
    obtain ⟨t, hrun, hready, hinbound, houtbound, hops⟩ := ih s.clocked (consumed + 2) after (advance c true) rest
      h.clocked (allDone_after (clocked_answerAt s) hdone') (clocked_inbound hi)
    refine ⟨t, run_add (h.run hi (allDone_of_le (Nat.le_add_right 6 _) hdone')) hrun, ?_, hinbound, houtbound, ?_⟩
    · rw [Function.iterate_succ_apply]
      have hconsumed : consumed + 2 * (n + 1) = consumed + 2 + 2 * n := by omega
      rw [hconsumed]; exact hready
    · have hsix : s.clocked.pinOps = s.pinOps + 3 + 3 := rfl
      omega

/-- Settles O42: five clocks with mode-select high, and the graph brings every state to `Reset` in five. -/
theorem tapResetFromEveryState : Obligations.TapResetFromEveryState := by
  intro s consumed after c rest hlegal hp hc hlatched hremaining hroom hdone hi
  obtain ⟨t, hrun, hready, hinbound, houtbound, hops⟩ :=
    run_clocks 5 s consumed after c rest ⟨hlegal, hp, hc, hlatched, hremaining, hroom⟩ hdone hi
  refine ⟨t, hrun, ?_, hready.unlatched, hinbound, houtbound, hops, hready.phase⟩
  rw [hready.tap, iterate_five_modeHigh]

end Sys2Proof.Machine
end

