-- ==== Sys2Proof/Proofs/Resets.lean ====
section
/-! The full reset from each of its sources, the frame of the control channel, and the caller's calls of `process`
(45_control_and_framer.md R220 to R234, 70_reset_and_hazards.md R300 to R306). -/

namespace Sys2Proof.Machine

/-! ## The full reset -/

theorem exec_busReset (s : State) : exec .busReset s = .next s.fullReset := rfl

/-- Settles O43, from the meaning of `RESET(0)` as the full reset and its acceptance. -/
theorem fullResetRequest : Obligations.FullResetRequest := fun s => exec_reset0 s

/-- Settles O45: every value from 3 on is the one row, which only accepts. -/
theorem otherResetValuesDoNothing : Obligations.OtherResetValuesDoNothing := fun _ _ =>
  ⟨fun h => decodeRequest_resetOther h, rfl⟩

/-- Settles O49: each source is `FullReset()`, with its acceptance, with new pin levels, or alone. -/
theorem everyResetIsTheFullReset : Obligations.EveryResetIsTheFullReset := by
  intro s
  refine ⟨exec_busReset s, fun rest hp hf ha => step_call hp hf ha, fun levels rest t hp hf ha h => ?_, fun t h => ?_⟩
  · rw [exec_busReset] at h
    cases h
    exact step_call hp hf ha
  · rw [exec_reset0] at h
    cases h
    exact exec_busReset s

/-- Settles O51: the values of the state after bring-up are those `FullReset()` writes. -/
theorem resetValues : Obligations.ResetValues := by
  refine ⟨⟨rfl, rfl, rfl, rfl, rfl, rfl, rfl, rfl, rfl⟩, fun s t h => ?_⟩
  rw [exec_busReset] at h
  cases h
  exact ⟨rfl, rfl, rfl, rfl, rfl, rfl, rfl, rfl⟩

/-- Settles O57: the owed reset is the caller's next step, and a bus reset is the same full reset. -/
theorem callerForcesOwedReset : Obligations.CallerForcesOwedReset := fun s hp hf =>
  ⟨s.fullReset, by rw [step_idle hp, callerTurn_forces hf], exec_busReset s, ⟨nofun, rfl⟩, rfl⟩

/-! ## The control channel -/

/-- No instruction that is no byte touches the pins, the responses, the wire, the batch or the agenda. -/
theorem exec_control_frame {s t : State} {i : Instr} (hi : isByte i = false) (h : exec i s = .next t) :
    t.pins = s.pins ∧ t.trace = s.trace ∧ t.pinAnswers = s.pinAnswers ∧ t.pinOps = s.pinOps ∧
    t.responses = s.responses ∧ t.wire = s.wire ∧ t.params = s.params ∧ t.phase = s.phase ∧ t.agenda = s.agenda := by
  obtain ⟨answers, ⟨-, hu⟩ | ⟨-, hu⟩ | ⟨-, hu⟩ | hu⟩ := control_cases hi s <;> rw [hu] at h <;> cases h <;>
    exact ⟨rfl, rfl, rfl, rfl, rfl, rfl, rfl, rfl, rfl⟩

/-- Of these instructions the full resets alone write the registers of the block, the framer's and the caller's. -/
theorem exec_control_registers {s t : State} {i : Instr} (hi : isByte i = false) (h : exec i s = .next t)
    (h0 : i ≠ .reset0) (hb : i ≠ .busReset) :
    t.tap = s.tap ∧ t.shiftRemaining = s.shiftRemaining ∧ t.shiftRegister = s.shiftRegister ∧
      t.readEnabled = s.readEnabled ∧ t.clockLatched = s.clockLatched ∧ t.framerState = s.framerState ∧
      t.resetOwed = s.resetOwed := by
  obtain ⟨answers, ⟨hr, -⟩ | ⟨-, hu⟩ | ⟨-, hu⟩ | hu⟩ := control_cases hi s
  · exact absurd hr (not_or.mpr ⟨h0, hb⟩)
  all_goals rw [hu] at h; cases h; exact ⟨rfl, rfl, rfl, rfl, rfl, rfl, rfl⟩

/-- Settles O52, from the frame of these instructions and what the resets and the purges write. -/
theorem controlChannelFrame : Obligations.ControlChannelFrame := by
  intro s t i hi h
  obtain ⟨hpins, htrace, hanswers, hops, hresponses, hwire, hparams, hphase, hagenda⟩ := exec_control_frame hi h
  refine ⟨hpins, htrace, hanswers, hops, hresponses, hwire, hparams, hphase, hagenda, exec_control_registers hi h,
    fun h0 hb h1 => (exec_control_inbound hi h).resolve_right ?_,
    fun h0 hb h2 => (exec_control_outbound hi h).resolve_right ?_⟩
  · rintro ⟨-, hr | hr | hr⟩
    · exact h0 hr
    · exact hb hr
    · exact h1 hr
  · rintro ⟨-, (hr | hr) | hr⟩
    · exact h0 hr
    · exact hb hr
    · exact h2 hr

/-! ## Calls of `process` -/

/-- A batch step that raises `PinFault` drops the write of its poll cycle (60_exceptions.md R269). -/
theorem step_inBatch_fault {s t : State} (hb : s.inBatch) (hs : s.tap ≠ .fault) (h : step s = .next t)
    (ht : t.tap = .fault) : t.phase = .idle ∧ t.agenda = s.agenda ∧ t.resetOwed = true := by
  cases hn : s.nextByte with
  | none =>
    obtain ⟨consumed, after, hend⟩ := step_inBatch_none hb hn
    rw [hend] at h
    cases h
    exact absurd ((endBatch_blockKept ..).tap.symm.trans ht) hs
  | some i =>
    rw [step_inBatch_some hb hn] at h
    rcases exec_byte_cases (isByte_of_nextByte hn) h with ⟨_, _, hd⟩ | ⟨_, _, hd⟩
    · exact absurd ht (hd.running hs)
    · exact ⟨hd.phase, hd.agenda, hd.resetOwed⟩

/-- Settles O56: with no fault outstanding each of the three ways into `process` begins a batch. -/
theorem pollCycle : Obligations.PollCycle := by
  intro s offered w rest
  refine ⟨fun hp ha ⟨htap, howed⟩ => ?_, fun hp ha ⟨htap, howed⟩ => ?_, fun hp ha ⟨htap, howed⟩ => ?_,
    fun consumed t hp htap h ht => step_inBatch_fault (by simp [State.inBatch, hp]) htap h ht⟩
  · have hbegin := beginBatch_running (s := { s with agenda := rest }) htap none
    exact (step_call hp howed ha).trans (congrArg Host.Outcome.next hbegin)
  · rw [step_idle hp, callerTurn_nil howed ha, beginBatch_running htap]
  · have hread : (framerRead offered { s with agenda := rest }).tap ≠ .fault := by
      rw [(framerRead_blockKept ..).tap]; exact htap
    exact (step_call hp howed ha).trans (congrArg Host.Outcome.next (beginBatch_running hread (some w)))

end Sys2Proof.Machine
end
